-- ==== Sys2Proof/Word.lean ====
section
/-! DEFINITION. The storage cell of the core and the range the spec calls a Word. -/

namespace Sys2Proof

/-- One storage cell: 16 bits, an unsigned integer in [0, 65535] (R8). Memory cells, registers, stack
entries, line-buffer entries and the pc all have this width. -/
abbrev Cell := BitVec 16

/-- The value of a literal token before it is zero-extended to a cell: 15 significant bits (R65). -/
abbrev Literal := BitVec 15

/-- The index of one of the eight registers (R6, R22). -/
abbrev RegIx := Fin 8

/-- A Word is a value in [0, 32767]; a cell above that is called wide (R21). -/
def Cell.isWord (c : Cell) : Bool := decide (c.toNat ≤ 32767)

end Sys2Proof
end

