-- ==== Sys2Proof/Config.lean ====
section
/-! DEFINITION. What an implementation fixes: the constants and the open parameters of `00_scope.md` section 3. -/

namespace Sys2Proof.Config

/-- `MEM_WORDS` (R5): the number of Memory cells; addresses are 0 to 32767. -/
abbrev memWords : Nat := 32768

/-- `MODULUS` (R7): `add` and `mult` reduce modulo this. -/
abbrev modulus : Nat := 32768

/-- `VALUE_MASK` (R7): `not` keeps these 15 bits. -/
abbrev valueMask : Cell := 0x7FFF#16

/-- `NEWLINE` (R12, R158): the one character code with an effect. PRESUMED by the spec itself (ASCII line feed, G2);
log entry 11. -/
abbrev newline : Cell := 10#16

/-- The largest word an image may hold (R72): a literal or a register-reference token. -/
abbrev maxImageWord : Nat := 32775

/-- The open parameters of R10, R11 and R13. `none` for a depth means unbounded. DESIGN CHOICE: they stand in `State` as
constant data (log entry 2), so that every statement holds for every value of them. -/
structure Params where
  /-- `IMPLEMENTED` (R13, D11): the opcode numbers that have semantics. -/
  implemented : List Nat
  /-- `STACK_DEPTH` (R10, D12). -/
  stackDepth : Option Nat
  /-- `OUTBUF_DEPTH` (R11, D13). -/
  outbufDepth : Option Nat
  /-- `INBUF_DEPTH` (R11, D13). -/
  inbufDepth : Option Nat
deriving DecidableEq, Repr

/-- The spec's default parameters: all 22 opcodes, no depth bounded (R10, R11, R13). -/
def Params.default : Params where
  implemented := [0, 1, 2, 3, 4, 5, 6, 7, 8, 9, 10, 11, 12, 13, 14, 15, 16, 17, 18, 19, 20, 21]
  stackDepth := none
  outbufDepth := none
  inbufDepth := none

end Sys2Proof.Config
end

