-- ==== Sys2Proof/Machine/State.lean ====
section
/-! DEFINITION. The complete state of the core (R20), the reasons a step can stop, and the state after reset. -/

namespace Sys2Proof.Machine

/-- Memory: the cells that do not hold 0, as (address, cell) pairs, addresses strictly rising (`Memory.wf`, Ops.lean).
The addressable unit is one 16-bit cell (R40); an unlisted address reads 0, its reset contents (R35). Log entry 1. -/
abbrev Memory := List (Nat × Cell)

/-- The nine fault causes of R170. A fault is taken as a NEXT state (R99, R182): it is no `Fault` of the model. -/
inductive Cause where
  /-- Fetch or operand fetch beyond address 32767 (R171). -/
  | outOfBoundsPC
  /-- The opcode cell is 22 or more (R172). -/
  | unknownOpcode
  /-- The opcode is not in `IMPLEMENTED` (R173). -/
  | unimplementedOpcode
  /-- An invalid token in a value position (R174). -/
  | invalidOperand
  /-- A token that is no register reference in a register-target position (R175). -/
  | invalidRegisterOperand
  /-- `pop` on an empty stack (R176). -/
  | stackUnderflow
  /-- `mod` by 0 (R177). -/
  | modByZero
  /-- `rmem` or `wmem` at 32768 or above (R179). -/
  | outOfBoundsAddress
  /-- `push` or `call` on a full stack of finite depth (R178). -/
  | stackOverflow
deriving DecidableEq, Repr

/-- Where the machine stops with no next state. -/
inductive Fault where
  /-- Raised by `step` on a halted core: a step is defined only when `running = true` (R90, R98). Safe: the spec gives a
  halted core no step. Log entry 6. -/
  | halted
deriving DecidableEq, Repr

/-- What the model gives no meaning. -/
inductive Refusal where
  /-- An arm of `exec` without a meaning yet. No arm answers it. Safe. -/
  | notModelled (mnemonic : String)
  /-- Raised by `out` when a FINITE `OUTBUF_DEPTH` is full: the spec defines no behaviour (R11, D13, U13: "for a finite
  depth `refuse`"). Never with the default. Safe. Log entry 8. -/
  | outbufDepthExceeded
  /-- Raised by `in` when a line is longer than a FINITE `INBUF_DEPTH` (R11, D13, U13). Never with the default. Safe. Log
  entry 8. -/
  | inbufDepthExceeded
deriving DecidableEq, Repr

/-- The state: the eight components of R20, then the model's own three fields. -/
structure State where
  /-- Memory Store: 32768 cells of 16 bits (R29). -/
  mem : Memory
  /-- Register File: 8 cells of 16 bits (R22). -/
  regs : Vector Cell 8
  /-- Value Stack, last element on top (R28). -/
  stack : List Cell
  /-- Program counter, one cell (R24). -/
  pc : Cell
  /-- Running flag (R26). -/
  running : Bool
  /-- Fault latch (R27). -/
  error : Option Cause
  /-- stdout line buffer (R30). -/
  outbuf : List Cell
  /-- stdin pending-line buffer (R31). -/
  inbuf : List Cell
  /-- The MODEL's own: the payloads handed to the line sink, oldest first (R156: an output trace). Log entry 5. -/
  sink : List (List Cell)
  /-- The MODEL's own: the line source's future answers, next one first (R155, R157: an input). Log entry 3. -/
  source : List (List Cell)
  /-- The MODEL's own: the open parameters, changed by no step (R10, R11, R13). Log entry 2. -/
  params : Config.Params
deriving DecidableEq, Repr

/-- What executing an instruction answers. -/
abbrev Result := Host.Outcome State Fault Refusal

/-- The machine right after reset with the empty image (R35, R196). The model's own fields: no line handed to the sink
yet; `source` empty (DESIGN CHOICE, log entry 3); the default parameters. Reset with an image is `State.resetWith`. -/
def State.reset : State where
  mem := []
  regs := Vector.replicate 8 0#16
  stack := []
  pc := 0#16
  running := true
  error := none
  outbuf := []
  inbuf := []
  sink := []
  source := []
  params := Config.Params.default

end Sys2Proof.Machine
end

