-- ==== Sys2Proof/Machine/Ops.lean ====
section
/-! DEFINITION. The named operations over memory, registers, the stack, the pc and the line buffers, and the one way a
fault is taken. -/

namespace Sys2Proof.Machine

/-! ## Memory (R42) -/

/-- The cell at an address, 0 where nothing is listed (R35, R47). -/
def Memory.read : Memory → Nat → Cell
  | [], _ => 0#16
  | (k, v) :: m, a => if k = a then v else Memory.read m a

/-- Memory with one cell changed. It keeps the canonical form: writing 0 removes the entry. -/
def Memory.write : Memory → Nat → Cell → Memory
  | [], a, v => if v = 0#16 then [] else [(a, v)]
  | (k, w) :: m, a, v =>
    if a < k then (if v = 0#16 then (k, w) :: m else (a, v) :: (k, w) :: m)
    else if a = k then (if v = 0#16 then m else (a, v) :: m)
    else (k, w) :: Memory.write m a v

/-- The canonical form from an address on: addresses strictly rising and inside the 32768 cells, no listed 0. -/
def Memory.wfFrom : Nat → Memory → Bool
  | _, [] => true
  | lo, (k, v) :: m => decide (lo ≤ k) && decide (k < Config.memWords) && decide (v ≠ 0#16) && Memory.wfFrom (k + 1) m

/-- The canonical form of memory: equal memories are equal lists. -/
def Memory.wf (m : Memory) : Bool := Memory.wfFrom 0 m

/-- `MemRead(a)` (R42): the cell, or nothing when the address is 32768 or more; never truncated, never wrapped. -/
def State.memRead (s : State) (a : Nat) : Option Cell :=
  if a < Config.memWords then some (s.mem.read a) else none

/-- `MemWrite(a, v)` (R42): the state with the cell written, or nothing when the address is 32768 or more. -/
def State.memWrite (s : State) (a : Nat) (v : Cell) : Option State :=
  if a < Config.memWords then some { s with mem := s.mem.write a v } else none

/-! ## Registers (R22) -/

/-- `reg[i]`. -/
def State.getReg (s : State) (r : RegIx) : Cell := s.regs[r]

/-- `reg[i] <- v`: the whole 16-bit cell; no register is hard-wired. -/
def State.setReg (s : State) (r : RegIx) (v : Cell) : State := { s with regs := s.regs.set r v }

/-! ## The program counter (R24, R97) -/

/-- `pc <- t`: any 16-bit value (R130). -/
def State.setPc (s : State) (t : Cell) : State := { s with pc := t }

/-- The default increment by an instruction's length: plain addition in the 16-bit pc (R97). -/
def State.advance (s : State) (n : Nat) : State := { s with pc := s.pc + BitVec.ofNat 16 n }

/-! ## The value stack (R28) -/

/-- Whether a buffer of a given depth (`none`: unbounded) can hold `n` entries. -/
def fits : Option Nat → Nat → Bool
  | none, _ => true
  | some d, n => decide (n ≤ d)

/-- Whether one more entry can be pushed (R10; always, with the default depth). -/
def State.stackRoom (s : State) : Bool := fits s.params.stackDepth (s.stack.length + 1)

/-- `stack <- stack ++ [v]`. -/
def State.push (s : State) (v : Cell) : State := { s with stack := s.stack ++ [v] }

/-- The stack without its last element. -/
def State.dropTop (s : State) : State := { s with stack := s.stack.dropLast }

/-! ## Halting and faults -/

/-- `running <- false`: a graceful halt, `error` kept (R98, R110). -/
def State.halt (s : State) : State := { s with running := false }

/-- Fault entry (R182): `running <- false`, `error <- cause`, and nothing else happens. There is no handler, no saved pc
and no return (R183); `pc` still addresses the faulting instruction (R99). -/
def State.raise (s : State) (e : Cause) : State := { s with running := false, error := some e }

/-- A step that raises a fault answers the state after fault entry. -/
def fault (e : Cause) (s : State) : Result := .next (s.raise e)

/-- The numeric code of the fault latch (R170, D10). -/
def errorCode : Option Cause → Nat
  | none => 0
  | some .outOfBoundsPC => 1
  | some .unknownOpcode => 2
  | some .unimplementedOpcode => 3
  | some .invalidOperand => 4
  | some .invalidRegisterOperand => 5
  | some .stackUnderflow => 6
  | some .modByZero => 7
  | some .outOfBoundsAddress => 8
  | some .stackOverflow => 9

/-! ## The I/O bridge (R152, R154) -/

/-- Whether `emit(c)` finds room in the output line buffer (R11; always, with the default depth). -/
def State.outbufRoom (s : State) (c : Cell) : Bool :=
  decide (c = Config.newline) || fits s.params.outbufDepth (s.outbuf.length + 1)

/-- `emit(c)` (R152): a character is appended; a newline hands the line, without the newline, to the sink once and clears
the buffer. -/
def State.emit (s : State) (c : Cell) : State :=
  if c = Config.newline then { s with sink := s.sink ++ [s.outbuf], outbuf := [] }
  else { s with outbuf := s.outbuf ++ [c] }

/-- What `nextInputChar()` answers. -/
inductive InputReply where
  /-- A character, and the state it leaves. -/
  | char (c : Cell) (s : State)
  /-- The source has not answered, or answered with an empty line, for which there is no transition (R155, R157). -/
  | wait
  /-- The line does not fit a FINITE `INBUF_DEPTH` (U13). -/
  | tooLong
deriving DecidableEq, Repr

/-- `nextInputChar()` (R154): the first character of the pending line; when the buffer is empty, one line is requested
first, and the core waits until the source supplies it (R155). -/
def State.nextInputChar (s : State) : InputReply :=
  match s.inbuf with
  | c :: rest => .char c { s with inbuf := rest }
  | [] =>
    match s.source with
    | [] => .wait
    | [] :: _ => .wait
    | (c :: rest) :: later =>
      if fits s.params.inbufDepth (rest.length + 1) then .char c { s with inbuf := rest, source := later } else .tooLong

end Sys2Proof.Machine
end

