-- ==== Sys2Proof/Syntax.lean ====
section
/-! DEFINITION. Operand tokens and the 22 instructions, one constructor per row of `opcode_table.json`. -/

namespace Sys2Proof

/-- An operand token by its class (R63). `invalid` keeps the raw cell, a value in [32776, 65535] (R68): an instruction
with an invalid token is still that instruction, and raises a fault when its operand is resolved (R95). -/
inductive Token where
  /-- t < 32768: the value t itself. -/
  | literal (v : Literal)
  /-- 32768 ≤ t < 32776: register t - 32768. -/
  | register (r : RegIx)
  /-- t ≥ 32776: resolving it is a fatal error. -/
  | invalid (t : Cell)
deriving DecidableEq, Repr

/-- The form of an operand position, fixed by the opcode (R64). -/
inductive Form where
  /-- `R`: the operand names the register to be written. -/
  | target
  /-- `V`: the operand yields a value. -/
  | value
deriving DecidableEq, Repr

/-- The 22 opcodes of R66, in the order of their numbers. `inp` is the row `in` (a reserved word of Lean). -/
inductive Opcode where
  | halt | set | push | pop | eq | gt | jmp | jt | jf | add | mult | mod | and | or | not
  | rmem | wmem | call | ret | out | inp | noop
deriving DecidableEq, Repr

/-- The 22 instructions with their operand tokens `a`, `b`, `c` (R60, R66). -/
inductive Instr where
  | halt
  | set (a b : Token)
  | push (a : Token)
  | pop (a : Token)
  | eq (a b c : Token)
  | gt (a b c : Token)
  | jmp (a : Token)
  | jt (a b : Token)
  | jf (a b : Token)
  | add (a b c : Token)
  | mult (a b c : Token)
  | mod (a b c : Token)
  | and (a b c : Token)
  | or (a b c : Token)
  | not (a b : Token)
  | rmem (a b : Token)
  | wmem (a b : Token)
  | call (a : Token)
  | ret
  | out (a : Token)
  | inp (a : Token)
  | noop
deriving DecidableEq, Repr

end Sys2Proof
end

