-- ==== Sys2Proof/Machine/Operands.lean ====
section
/-! DEFINITION. The Operand Resolver: the two addressing modes and the two resolving functions (R80, R81). -/

namespace Sys2Proof.Machine

/-- `resolveValue(t)` (R80): a literal is its value, zero-extended; a register reference is the register's content. -/
def resolveValue (s : State) : Token → Except Cause Cell
  | .literal v => .ok (v.setWidth 16)
  | .register r => .ok (s.getReg r)
  | .invalid _ => .error .invalidOperand

/-- `resolveRegisterTarget(t)` (R81): the index of a register reference; anything else is no destination. -/
def resolveTarget : Token → Except Cause RegIx
  | .register r => .ok r
  | .literal _ => .error .invalidRegisterOperand
  | .invalid _ => .error .invalidRegisterOperand

/-- Resolve a value operand, then go on with its value; a failure raises its fault and ends the step (R83, R95). -/
def withValue (t : Token) (s : State) (k : Cell → Result) : Result :=
  match resolveValue s t with
  | .ok v => k v
  | .error e => fault e s

/-- Resolve a destination operand, then go on with the register's index (R83, R95). -/
def withTarget (t : Token) (s : State) (k : RegIx → Result) : Result :=
  match resolveTarget t with
  | .ok r => k r
  | .error e => fault e s

/-- The shape of the instructions that write f(b, c) into register a (format RVV, R61): the operands are resolved in the
order A, B, C, all before the write (R83, R84). -/
def writeOp3 (a b c : Token) (s : State) (f : Cell → Cell → Cell) : Result :=
  withTarget a s fun r => withValue b s fun x => withValue c s fun y => .next ((s.setReg r (f x y)).advance 4)

/-- The shape of the instructions that write f(b) into register a (format RV, R61). -/
def writeOp2 (a b : Token) (s : State) (f : Cell → Cell) : Result :=
  withTarget a s fun r => withValue b s fun x => .next ((s.setReg r (f x)).advance 3)

end Sys2Proof.Machine
end

