-- ==== Sys2Proof/Machine/Arith.lean ====
section
/-! DEFINITION. `add`, `mult`, `mod`, `and`, `or`, `not` (`46_arith_logic.md`): the exact result over the naturals, then
the stated reduction (R135). -/

namespace Sys2Proof.Machine

/-- The sum modulo 32768 (R136). -/
def addCells (x y : Cell) : Cell := BitVec.ofNat 16 ((x.toNat + y.toNat) % Config.modulus)

/-- The product modulo 32768: exact first, then reduced (R137). -/
def multCells (x y : Cell) : Cell := BitVec.ofNat 16 ((x.toNat * y.toNat) % Config.modulus)

/-- The remainder of unsigned division, not reduced further (R138). -/
def modCells (x y : Cell) : Cell := BitVec.ofNat 16 (x.toNat % y.toNat)

/-- The 15-bit complement (R141). -/
def notCell (x : Cell) : Cell := ~~~x &&& Config.valueMask

/-- `add a b c` (R136). -/
def execAdd (a b c : Token) (s : State) : Result := writeOp3 a b c s addCells

/-- `mult a b c` (R137). -/
def execMult (a b c : Token) (s : State) : Result := writeOp3 a b c s multCells

/-- `mod a b c` (R138): a divisor of 0 raises ModByZero after all operands are resolved (D6, D8). -/
def execMod (a b c : Token) (s : State) : Result :=
  withTarget a s fun r => withValue b s fun x => withValue c s fun y =>
    if y = 0#16 then fault .modByZero s else .next ((s.setReg r (modCells x y)).advance 4)

/-- `and a b c` (R139): bitwise on the whole cell. -/
def execAnd (a b c : Token) (s : State) : Result := writeOp3 a b c s fun x y => x &&& y

/-- `or a b c` (R140): bitwise on the whole cell. -/
def execOr (a b c : Token) (s : State) : Result := writeOp3 a b c s fun x y => x ||| y

/-- `not a b` (R141). -/
def execNot (a b : Token) (s : State) : Result := writeOp2 a b s notCell

end Sys2Proof.Machine
end

