-- ==== Sys2Proof/Machine/Flags.lean ====
section
/-! DEFINITION. The hardware has no flags (R32): a comparison writes 0 or 1 into a general register, and the conditional
jumps test a general value. This file holds those two conversions and nothing else. -/

namespace Sys2Proof.Machine

/-- The result of a comparison as a cell: 1 or 0 (R32, R120, R121). -/
def flagCell (b : Bool) : Cell := if b then 1#16 else 0#16

/-- What `jt` and `jf` test: the full 16-bit value is not 0 (R126, R127). -/
def isNonzero (v : Cell) : Bool := decide (v ≠ 0#16)

end Sys2Proof.Machine
end

