-- ==== Sys2Proof/Machine/Compare.lean ====
section
/-! DEFINITION. `eq` and `gt` (`44_compare.md`). -/

namespace Sys2Proof.Machine

/-- `eq a b c` (R120): 1 when the full 16-bit values are equal. -/
def execEq (a b c : Token) (s : State) : Result := writeOp3 a b c s fun x y => flagCell (decide (x = y))

/-- `gt a b c` (R121): unsigned and strict. -/
def execGt (a b c : Token) (s : State) : Result := writeOp3 a b c s fun x y => flagCell (decide (y.toNat < x.toNat))

end Sys2Proof.Machine
end

