-- ==== Sys2Proof/Machine/Control.lean ====
section
/-! DEFINITION. `jmp`, `jt`, `jf`, `call`, `ret` (`45_control_transfer.md`): the five that set the pc themselves. -/

namespace Sys2Proof.Machine

/-- `jmp a` (R125). -/
def execJmp (a : Token) (s : State) : Result := withValue a s fun x => .next (s.setPc x)

/-- `jt a b` (R126): the target is resolved whether or not the jump is taken (D9). -/
def execJt (a b : Token) (s : State) : Result :=
  withValue a s fun x => withValue b s fun y => .next (if isNonzero x then s.setPc y else s.advance 3)

/-- `jf a b` (R127). -/
def execJf (a b : Token) (s : State) : Result :=
  withValue a s fun x => withValue b s fun y => .next (if isNonzero x then s.advance 3 else s.setPc y)

/-- `call a` (R128): pushes the address of the next instruction, then jumps. -/
def execCall (a : Token) (s : State) : Result :=
  withValue a s fun x =>
    if s.stackRoom then .next ((s.push (s.pc + 2#16)).setPc x) else fault .stackOverflow s

/-- `ret` (R129): an empty stack is a graceful halt with the pc unchanged. -/
def execRet (s : State) : Result :=
  match s.stack.getLast? with
  | some v => .next (s.dropTop.setPc v)
  | none => .next s.halt

end Sys2Proof.Machine
end

