-- ==== Sys2Proof/Machine/Io.lean ====
section
/-! DEFINITION. `out` and `in` (`48_io.md`). -/

namespace Sys2Proof.Machine

/-- `out a` (R150). A FINITE `OUTBUF_DEPTH` that is full has no behaviour (U13). -/
def execOut (a : Token) (s : State) : Result :=
  withValue a s fun x => if s.outbufRoom x then .next ((s.emit x).advance 2) else .refused .outbufDepthExceeded

/-- `in a` (R151): the destination is checked before any I/O. A wait changes nothing: the core is Running and the pc
addresses the `in` (R155), so the step answers the same state. -/
def execInp (a : Token) (s : State) : Result :=
  withTarget a s fun r =>
    match s.nextInputChar with
    | .char c s' => .next ((s'.setReg r c).advance 2)
    | .wait => .next s
    | .tooLong => .refused .inbufDepthExceeded

end Sys2Proof.Machine
end

