-- ==== Sys2Proof/Machine/MemAccess.lean ====
section
/-! DEFINITION. `rmem` and `wmem` (`47_memory_access.md`): the only load and the only store (R147). -/

namespace Sys2Proof.Machine

/-- `rmem a b` (R145): the whole cell at the address that is the value of b. -/
def execRmem (a b : Token) (s : State) : Result :=
  withTarget a s fun r => withValue b s fun x =>
    match s.memRead x.toNat with
    | some v => .next ((s.setReg r v).advance 3)
    | none => fault .outOfBoundsAddress s

/-- `wmem a b` (R146): the value of b goes to the cell whose address is the value of a. -/
def execWmem (a b : Token) (s : State) : Result :=
  withValue a s fun x => withValue b s fun y =>
    match s.memWrite x.toNat y with
    | some s' => .next (s'.advance 3)
    | none => fault .outOfBoundsAddress s

end Sys2Proof.Machine
end

