-- ==== Sys2Proof/Machine/MoveStack.lean ====
section
/-! DEFINITION. `set`, `push`, `pop` (`43_move_stack.md`). -/

namespace Sys2Proof.Machine

/-- `set a b` (R115): the value is copied whole. -/
def execSet (a b : Token) (s : State) : Result := writeOp2 a b s fun x => x

/-- `push a` (R116). -/
def execPush (a : Token) (s : State) : Result :=
  withValue a s fun x => if s.stackRoom then .next ((s.push x).advance 2) else fault .stackOverflow s

/-- `pop a` (R117): the destination is checked before the stack. -/
def execPop (a : Token) (s : State) : Result :=
  withTarget a s fun r =>
    match s.stack.getLast? with
    | some v => .next ((s.dropTop.setReg r v).advance 2)
    | none => fault .stackUnderflow s

end Sys2Proof.Machine
end

