-- ==== Sys2Proof/Machine/System.lean ====
section
/-! DEFINITION. `halt` and `noop` (`42_system.md`). -/

namespace Sys2Proof.Machine

/-- `halt` (R110): a graceful halt; the default increment still applies (D3). -/
def execHalt (s : State) : Result := .next (s.halt.advance 1)

/-- `noop` (R111): only the default increment. -/
def execNoop (s : State) : Result := .next (s.advance 1)

end Sys2Proof.Machine
end

