-- ==== Sys2Proof/Decode.lean ====
section
/-! DEFINITION. The opcode map, the decoder (total on any cells, rejecting by name) and the encoder. -/

namespace Sys2Proof

/-! ## The opcode map (R61, R66) -/

/-- The opcode number, the whole 16-bit value of cell 0 (R62, R66). -/
def Opcode.code : Opcode → Nat
  | .halt => 0
  | .set => 1
  | .push => 2
  | .pop => 3
  | .eq => 4
  | .gt => 5
  | .jmp => 6
  | .jt => 7
  | .jf => 8
  | .add => 9
  | .mult => 10
  | .mod => 11
  | .and => 12
  | .or => 13
  | .not => 14
  | .rmem => 15
  | .wmem => 16
  | .call => 17
  | .ret => 18
  | .out => 19
  | .inp => 20
  | .noop => 21

/-- The opcode with a number, none for 22 and above (R67). -/
def Opcode.ofCode? : Nat → Option Opcode
  | 0 => some .halt
  | 1 => some .set
  | 2 => some .push
  | 3 => some .pop
  | 4 => some .eq
  | 5 => some .gt
  | 6 => some .jmp
  | 7 => some .jt
  | 8 => some .jf
  | 9 => some .add
  | 10 => some .mult
  | 11 => some .mod
  | 12 => some .and
  | 13 => some .or
  | 14 => some .not
  | 15 => some .rmem
  | 16 => some .wmem
  | 17 => some .call
  | 18 => some .ret
  | 19 => some .out
  | 20 => some .inp
  | 21 => some .noop
  | _ => none

/-- The forms of the operand positions, in the order A, B, C (R61, R64). -/
def Opcode.forms : Opcode → List Form
  | .halt => []
  | .set => [.target, .value]
  | .push => [.value]
  | .pop => [.target]
  | .eq => [.target, .value, .value]
  | .gt => [.target, .value, .value]
  | .jmp => [.value]
  | .jt => [.value, .value]
  | .jf => [.value, .value]
  | .add => [.target, .value, .value]
  | .mult => [.target, .value, .value]
  | .mod => [.target, .value, .value]
  | .and => [.target, .value, .value]
  | .or => [.target, .value, .value]
  | .not => [.target, .value]
  | .rmem => [.target, .value]
  | .wmem => [.value, .value]
  | .call => [.value]
  | .ret => []
  | .out => [.value]
  | .inp => [.target]
  | .noop => []

/-- `LEN[op]` (R66): the length in cells, the opcode cell included. -/
def Opcode.length (o : Opcode) : Nat := o.forms.length + 1

/-- Whether the default increment applies: false for the five non-advancing instructions (R97). -/
def Opcode.advances : Opcode → Bool
  | .jmp => false
  | .jt => false
  | .jf => false
  | .call => false
  | .ret => false
  | .halt => true
  | .set => true
  | .push => true
  | .pop => true
  | .eq => true
  | .gt => true
  | .add => true
  | .mult => true
  | .mod => true
  | .and => true
  | .or => true
  | .not => true
  | .rmem => true
  | .wmem => true
  | .out => true
  | .inp => true
  | .noop => true

/-- The opcode of an instruction. -/
def Instr.opcode : Instr → Opcode
  | .halt => .halt
  | .set _ _ => .set
  | .push _ => .push
  | .pop _ => .pop
  | .eq _ _ _ => .eq
  | .gt _ _ _ => .gt
  | .jmp _ => .jmp
  | .jt _ _ => .jt
  | .jf _ _ => .jf
  | .add _ _ _ => .add
  | .mult _ _ _ => .mult
  | .mod _ _ _ => .mod
  | .and _ _ _ => .and
  | .or _ _ _ => .or
  | .not _ _ => .not
  | .rmem _ _ => .rmem
  | .wmem _ _ => .wmem
  | .call _ => .call
  | .ret => .ret
  | .out _ => .out
  | .inp _ => .inp
  | .noop => .noop

/-- The operand tokens of an instruction, in the order A, B, C (R60). -/
def Instr.operands : Instr → List Token
  | .halt => []
  | .set a b => [a, b]
  | .push a => [a]
  | .pop a => [a]
  | .eq a b c => [a, b, c]
  | .gt a b c => [a, b, c]
  | .jmp a => [a]
  | .jt a b => [a, b]
  | .jf a b => [a, b]
  | .add a b c => [a, b, c]
  | .mult a b c => [a, b, c]
  | .mod a b c => [a, b, c]
  | .and a b c => [a, b, c]
  | .or a b c => [a, b, c]
  | .not a b => [a, b]
  | .rmem a b => [a, b]
  | .wmem a b => [a, b]
  | .call a => [a]
  | .ret => []
  | .out a => [a]
  | .inp a => [a]
  | .noop => []

/-! ## Decoding -/

/-- Why a sequence of cells is no instruction. -/
inductive DecodeError where
  /-- There is no opcode cell (fetch beyond Memory, R91). -/
  | noCell
  /-- The opcode cell is 22 or more (R67). -/
  | unknownOpcode (c : Cell)
  /-- The opcode is known and its operand cells are not all there (R94). -/
  | truncated (o : Opcode)
deriving DecidableEq, Repr

/-- The class of a raw operand cell (R63). -/
def Token.ofCell (t : Cell) : Token :=
  if t.toNat < 32768 then .literal (t.setWidth 15)
  else if t.toNat < 32776 then .register (Fin.ofNat 8 (t.toNat - 32768))
  else .invalid t

/-- An instruction of one operand from the cells after the opcode cell. -/
def decode1 (f : Token → Instr) : List Cell → Option (Instr × List Cell)
  | a :: rest => some (f (Token.ofCell a), rest)
  | _ => none

/-- An instruction of two operands from the cells after the opcode cell. -/
def decode2 (f : Token → Token → Instr) : List Cell → Option (Instr × List Cell)
  | a :: b :: rest => some (f (Token.ofCell a) (Token.ofCell b), rest)
  | _ => none

/-- An instruction of three operands from the cells after the opcode cell. -/
def decode3 (f : Token → Token → Token → Instr) : List Cell → Option (Instr × List Cell)
  | a :: b :: c :: rest => some (f (Token.ofCell a) (Token.ofCell b) (Token.ofCell c), rest)
  | _ => none

/-- The instruction of an opcode from the cells after it, and the cells left; none when cells are missing (R60, R69). -/
def decodeOperands : Opcode → List Cell → Option (Instr × List Cell)
  | .halt, rest => some (.halt, rest)
  | .set, rest => decode2 .set rest
  | .push, rest => decode1 .push rest
  | .pop, rest => decode1 .pop rest
  | .eq, rest => decode3 .eq rest
  | .gt, rest => decode3 .gt rest
  | .jmp, rest => decode1 .jmp rest
  | .jt, rest => decode2 .jt rest
  | .jf, rest => decode2 .jf rest
  | .add, rest => decode3 .add rest
  | .mult, rest => decode3 .mult rest
  | .mod, rest => decode3 .mod rest
  | .and, rest => decode3 .and rest
  | .or, rest => decode3 .or rest
  | .not, rest => decode2 .not rest
  | .rmem, rest => decode2 .rmem rest
  | .wmem, rest => decode2 .wmem rest
  | .call, rest => decode1 .call rest
  | .ret, rest => some (.ret, rest)
  | .out, rest => decode1 .out rest
  | .inp, rest => decode1 .inp rest
  | .noop, rest => some (.noop, rest)

/-- The decoder: the instruction at the head of a sequence of cells and the cells after it, or the reason there is none.
Total on any cells; the opcode cell alone decides the length (R69). -/
def decode : List Cell → Except DecodeError (Instr × List Cell)
  | [] => .error .noCell
  | c :: rest =>
    match Opcode.ofCode? c.toNat with
    | none => .error (.unknownOpcode c)
    | some o =>
      match decodeOperands o rest with
      | none => .error (.truncated o)
      | some r => .ok r

/-! ## Encoding -/

/-- The opcode cell of an opcode (R62). -/
def Opcode.cell (o : Opcode) : Cell := BitVec.ofNat 16 o.code

/-- The cell of a token (R63, R70): a literal is its value, register i is 32768 + i. -/
def Token.encode : Token → Cell
  | .literal v => v.setWidth 16
  | .register r => BitVec.ofNat 16 (32768 + r.val)
  | .invalid t => t

/-- The cells of an instruction, lowest address first (R60, R61). -/
def encode (i : Instr) : List Cell := i.opcode.cell :: i.operands.map Token.encode

/-! ## Words as the opcode table numbers them -/

/-- The four cells of an instruction whose table bits are `w`: bit 0 is the least significant bit of the first cell, and
every bit from `nbits` up is 0. -/
def tableCells (nbits w : Nat) : List Cell :=
  [0, 16, 32, 48].map fun k => BitVec.ofNat 16 ((w % 2 ^ nbits) >>> k)

/-- The instruction the decoder reads from an instruction whose table bits are `w`. -/
def decodeTableWord (nbits w : Nat) : Option Instr :=
  match decode (tableCells nbits w) with
  | .ok (i, _) => some i
  | .error _ => none

end Sys2Proof
end

