-- ==== Sys2Proof/Machine/Fetch.lean ====
section
/-! DEFINITION. Fetch, opcode lookup and operand fetch (R91 to R94), and placing an instruction's cells where fetch
reads them. -/

namespace Sys2Proof.Machine

/-- The addresses an instruction at the pc can occupy: at most four cells (R60). -/
def State.fetchAddrs (s : State) : List Nat := [s.pc.toNat, s.pc.toNat + 1, s.pc.toNat + 2, s.pc.toNat + 3]

/-- The cells at the pc, as many as exist: addresses stop at 32767 and do not wrap (R94, D4). -/
def State.fetchCells (s : State) : List Cell := s.fetchAddrs.filterMap s.memRead

/-- Whether an opcode is in `IMPLEMENTED` (R13, R93). -/
def State.implements (s : State) (o : Opcode) : Bool := s.params.implemented.contains o.code

/-- The fetched instruction, or the cause raised before there is one. The causes come in the order of R90: a pc beyond
Memory, an unknown opcode, an unimplemented opcode, operand cells beyond Memory. -/
def State.fetch (s : State) : Except Cause Instr :=
  match decode s.fetchCells with
  | .ok (i, _) => if s.implements i.opcode then .ok i else .error .unimplementedOpcode
  | .error .noCell => .error .outOfBoundsPC
  | .error (.unknownOpcode _) => .error .unknownOpcode
  | .error (.truncated o) => if s.implements o then .error .outOfBoundsPC else .error .unimplementedOpcode

/-- Memory with cells stored from an address on; a cell beyond address 32767 does not exist and is dropped. -/
def Memory.storeCells : Memory → Nat → List Cell → Memory
  | m, _, [] => m
  | m, a, c :: cs => Memory.storeCells (if a < Config.memWords then m.write a c else m) (a + 1) cs

/-- The state with cells stored where the next fetch reads: at the pc and upward. -/
def State.placeAtPc (s : State) (cs : List Cell) : State := { s with mem := s.mem.storeCells s.pc.toNat cs }

end Sys2Proof.Machine
end

