-- ==== Sys2Proof/Machine/Step.lean ====
section
/-! DEFINITION. One step (R90). -/

namespace Sys2Proof.Machine

/-- One step: a halted core has none (R98); a running one fetches, and either raises the fetch fault or executes the
instruction to completion. -/
def step (s : State) : Host.Outcome State Fault Refusal :=
  if s.running then
    match s.fetch with
    | .ok i => exec i s
    | .error e => fault e s
  else .fault .halted

/-- The state with the instruction of the table bits `w` stored at the pc, its operand cells above `nbits` zero. It stands
for the load that is part of reset (R196). Log entry 9. -/
def State.withFetchWord (s : State) (nbits w : Nat) : State := s.placeAtPc (tableCells nbits w)

end Sys2Proof.Machine
end

