-- ==== Sys2Proof/Machine/Load.lean ====
section
/-! DEFINITION. The loader's interface (R56, R72, R185) and reset with an image (R195, R196). No step uses this file: it
is what the host does before a run. -/

namespace Sys2Proof.Machine

/-- `FormatError` (R185): the loader's own load-time error, not a fault of the core. -/
inductive FormatError where
  /-- An image of odd byte length. -/
  | oddLength
  /-- A word of 32776 or more. -/
  | tokenOutOfRange (w : Cell)
deriving DecidableEq, Repr

/-- A little-endian 16-bit word: low byte + 256 * high byte (R44, R72). -/
def imageWord (lo hi : BitVec 8) : Cell := BitVec.ofNat 16 (lo.toNat + 256 * hi.toNat)

/-- The words of an image file, validated (R72): even length, every word at most 32775. An odd length is reported before
any word. -/
def imageWords : List (BitVec 8) → Except FormatError (List Cell)
  | [] => .ok []
  | [_] => .error .oddLength
  | lo :: hi :: rest =>
    match imageWords rest with
    | .error .oddLength => .error .oddLength
    | .error (.tokenOutOfRange w) =>
      if Config.maxImageWord < (imageWord lo hi).toNat then .error (.tokenOutOfRange (imageWord lo hi))
      else .error (.tokenOutOfRange w)
    | .ok ws =>
      if Config.maxImageWord < (imageWord lo hi).toNat then .error (.tokenOutOfRange (imageWord lo hi))
      else .ok (imageWord lo hi :: ws)

/-- The words of an image in Memory from an address on, in canonical form. -/
def Memory.ofWords : Nat → List Cell → Memory
  | _, [] => []
  | a, w :: ws => if w = 0#16 then Memory.ofWords (a + 1) ws else (a, w) :: Memory.ofWords (a + 1) ws

/-- Reset with an image (R196, R56): the image at address 0 upward, zero elsewhere, and every other component as after
reset. Defined only for at most 32768 words (D20, U17). -/
def State.resetWith (ws : List Cell) : Option State :=
  if ws.length ≤ Config.memWords then some { State.reset with mem := Memory.ofWords 0 ws } else none

/-- The reset event on a core in any condition (R195): it discards all state of the core. What is outside the core stays:
the parameters, the lines already delivered, the host's future lines. Log entry 17. -/
def State.applyReset (ws : List Cell) (s : State) : Option State :=
  (State.resetWith ws).map fun t => { t with params := s.params, sink := s.sink, source := s.source }

/-- The host supplies one more line (R155, R157): it may do so between any two steps. -/
def State.supplyLine (s : State) (line : List Cell) : State := { s with source := s.source ++ [line] }

end Sys2Proof.Machine
end

