-- ==== Sys2Proof/Machine/Status.lean ====
section
/-! DEFINITION. What the outside can see of the core's condition (R191). -/

namespace Sys2Proof.Machine

/-- The status outputs: `running` and the code of `error` (R191, R170). -/
def State.status (s : State) : Bool × Nat := (s.running, errorCode s.error)

/-- Whether the core has a line request outstanding: it is Running at an `in` with a register destination and the pending
line is used up (R154, R191). While it is, only the source's answer lets the step complete (R155). -/
def State.lineRequested (s : State) : Bool :=
  s.running && s.inbuf.isEmpty &&
    match s.fetch with
    | .ok (.inp (.register _)) => true
    | _ => false

end Sys2Proof.Machine
end

