-- ==== Sys2Proof/Safety.lean ====
section
/-! DEFINITION. The vocabulary of the claims: the ways a run can stand, the invariants, and the spec's tables of faults
written from the raw cells of Memory, not from the decoder. -/

namespace Sys2Proof.Machine

/-! ## The condition of the core (R98) -/

/-- Halted with no fault latched. -/
def State.graceful (s : State) : Bool := !s.running && s.error.isNone

/-- Halted with a fault latched. -/
def State.faulted (s : State) : Bool := !s.running && s.error.isSome

/-! ## Invariants -/

/-- What holds in every state of a run: memory is canonical; a latched fault means Halted (R27); `outbuf` and every
delivered line hold no newline (R30, R156); stack and line buffers are within the parameters' depths (R10, R11). -/
def State.inv (s : State) : Bool :=
  s.mem.wf && (s.error.isNone || !s.running) && !s.outbuf.contains Config.newline
    && s.sink.all (fun line => !line.contains Config.newline)
    && fits s.params.stackDepth s.stack.length && fits s.params.outbufDepth s.outbuf.length
    && fits s.params.inbufDepth s.inbuf.length

/-- The range invariant of R21: registers and stack entries are Words, every cell of memory is at most 32775. -/
def State.wordInv (s : State) : Bool :=
  s.regs.toList.all Cell.isWord && s.stack.all Cell.isWord && s.mem.all (fun p => decide (p.2.toNat ≤ Config.maxImageWord))

/-- The three cases of R21 in which an instruction may leave the range: `rmem` of a wide cell, `call` at pc 32766, `in` of
a wide character code. -/
def State.widens (s : State) : Bool :=
  match s.fetch with
  | .ok (.rmem (.register _) b) =>
    match resolveValue s b with
    | .ok x => decide (x.toNat ≤ 32767) && decide (32767 < (s.mem.read x.toNat).toNat)
    | .error _ => false
  | .ok (.call a) =>
    match resolveValue s a with
    | .ok _ => s.stackRoom && decide (s.pc = 32766#16)
    | .error _ => false
  | .ok (.inp (.register _)) =>
    match s.nextInputChar with
    | .char c _ => decide (32767 < c.toNat)
    | .wait => false
    | .tooLong => false
  | _ => false

/-! ## Operand faults by form (R64, R68) -/

/-- The fault of a token in a position of a given form, if any. -/
def formCause : Form → Token → Option Cause
  | .target, .register _ => none
  | .target, .literal _ => some .invalidRegisterOperand
  | .target, .invalid _ => some .invalidRegisterOperand
  | .value, .literal _ => none
  | .value, .register _ => none
  | .value, .invalid _ => some .invalidOperand

/-- The fault of the first operand that cannot be resolved, in the order A, B, C (R83). -/
def operandFault (i : Instr) : Option Cause :=
  (i.opcode.forms.zip i.operands).findSome? fun p => formCause p.1 p.2

/-! ## The fault an instruction reports, from the raw cells (R181) -/

/-- The raw cell `k` places after the pc. -/
def State.cellAt (s : State) (k : Nat) : Cell := s.mem.read (s.pc.toNat + k)

/-- The value a raw token stands for in a value position, when it is not invalid (R63, R80). -/
def State.tokenValue (s : State) (t : Cell) : Cell :=
  if t.toNat < 32768 then t else s.getReg (Fin.ofNat 8 (t.toNat - 32768))

/-- The fault of a raw token in a position of a given form (R68). -/
def rawCause (t : Cell) : Form → Option Cause
  | .target => if 32768 ≤ t.toNat ∧ t.toNat ≤ 32775 then none else some .invalidRegisterOperand
  | .value => if t.toNat ≤ 32775 then none else some .invalidOperand

/-- The fault of the execute phase, given an opcode whose operands all resolve (R181, item 8). -/
def State.executeCause (s : State) : Opcode → Option Cause
  | .pop => if s.stack = [] then some .stackUnderflow else none
  | .mod => if s.tokenValue (s.cellAt 3) = 0#16 then some .modByZero else none
  | .rmem => if 32767 < (s.tokenValue (s.cellAt 2)).toNat then some .outOfBoundsAddress else none
  | .wmem => if 32767 < (s.tokenValue (s.cellAt 1)).toNat then some .outOfBoundsAddress else none
  | .push => if s.stackRoom then none else some .stackOverflow
  | .call => if s.stackRoom then none else some .stackOverflow
  | _ => none

/-- The first cause that applies, in the eight places of R181. -/
def State.dueFault (s : State) : Option Cause :=
  if 32767 < s.pc.toNat then some .outOfBoundsPC
  else
    match Opcode.ofCode? (s.cellAt 0).toNat with
    | none => some .unknownOpcode
    | some o =>
      if !s.params.implemented.contains (s.cellAt 0).toNat then some .unimplementedOpcode
      else if 32768 < s.pc.toNat + o.length then some .outOfBoundsPC
      else
        match (o.forms.zip [s.cellAt 1, s.cellAt 2, s.cellAt 3]).findSome? (fun p => rawCause p.2 p.1) with
        | some e => some e
        | none => s.executeCause o

end Sys2Proof.Machine
end

