-- ==== Sys2Proof/WellFormed.lean ====
section
/-! DEFINITION. Which instruction terms stand for cells of Memory: each token must be of its own class. -/

namespace Sys2Proof

/-- A token is well-formed when an `invalid` one really lies in [32776, 65535] (R63, R68): the three classes partition
the cell values, so each cell is exactly one well-formed token. -/
def Token.wf : Token → Bool
  | .literal _ => true
  | .register _ => true
  | .invalid t => decide (32776 ≤ t.toNat)

/-- An instruction is well-formed when each of its tokens is. -/
def Instr.wf : Instr → Bool
  | .halt => true
  | .set a b => a.wf && b.wf
  | .push a => a.wf
  | .pop a => a.wf
  | .eq a b c => a.wf && b.wf && c.wf
  | .gt a b c => a.wf && b.wf && c.wf
  | .jmp a => a.wf
  | .jt a b => a.wf && b.wf
  | .jf a b => a.wf && b.wf
  | .add a b c => a.wf && b.wf && c.wf
  | .mult a b c => a.wf && b.wf && c.wf
  | .mod a b c => a.wf && b.wf && c.wf
  | .and a b c => a.wf && b.wf && c.wf
  | .or a b c => a.wf && b.wf && c.wf
  | .not a b => a.wf && b.wf
  | .rmem a b => a.wf && b.wf
  | .wmem a b => a.wf && b.wf
  | .call a => a.wf
  | .ret => true
  | .out a => a.wf
  | .inp a => a.wf
  | .noop => true

end Sys2Proof
end

