-- ==== Sys2Proof/Certificates/Slice0/Obligations.lean ====
section
/-! DEFINITION. The statements about the model, for the provers. A fault is written out as the state it leaves: `running`
false and the cause in `error`, everything else as before (R99, R182). -/

open Sys2Proof Sys2Proof.Machine

/-! ## Encoding -/

/-- Decoding an encoded well-formed instruction gives it back, whatever cells follow. -/
def Obligations.DecodeEncodeRoundTrip : Prop :=
  ∀ (i : Instr) (rest : List Cell), i.wf = true → decode (encode i ++ rest) = .ok (i, rest)

/-- Whatever the decoder reads is well-formed, and its encoding is the cells it was read from: no two sequences of cells
are read as one instruction, and every reserved bit counts. -/
def Obligations.EncodeDecodeRoundTrip : Prop :=
  ∀ (cells rest : List Cell) (i : Instr), decode cells = .ok (i, rest) → i.wf = true ∧ cells = encode i ++ rest

/-- The three token classes by range, with the register index; that resolving the third class is a fatal error; and the
equivalent bit tests (R63). -/
def Obligations.TokenClassesPartition : Prop :=
  ∀ t : Cell,
    (t.toNat < 32768 → ∃ v : Literal, Token.ofCell t = .literal v ∧ v.toNat = t.toNat) ∧
    (32768 ≤ t.toNat → t.toNat < 32776 → ∃ r : RegIx, Token.ofCell t = .register r ∧ r.val = t.toNat - 32768) ∧
    (32776 ≤ t.toNat → Token.ofCell t = .invalid t ∧
      (∀ s : State, resolveValue s (Token.ofCell t) = .error .invalidOperand) ∧
      resolveTarget (Token.ofCell t) = .error .invalidRegisterOperand) ∧
    (t.toNat < 32768 ↔ t.getLsbD 15 = false) ∧
    ((32768 ≤ t.toNat ∧ t.toNat < 32776) ↔ (t.getLsbD 15 = true ∧ t.extractLsb' 3 12 = 0#12)) ∧
    (32776 ≤ t.toNat ↔ (t.getLsbD 15 = true ∧ t.extractLsb' 3 12 ≠ 0#12)) ∧
    (32768 ≤ t.toNat → t.toNat < 32776 → t.toNat - 32768 = (t.extractLsb' 0 3).toNat)

/-- Each row of the opcode map, cell by cell: the decoder reads the row's mnemonic, takes the row's number of operand
tokens in the order A, B, C, and leaves the rest (R66). -/
def Obligations.OpcodeMapDecodes : Prop :=
  ∀ (a b c : Cell) (rest : List Cell),
    decode (0#16 :: rest) = .ok (.halt, rest) ∧
    decode (1#16 :: a :: b :: rest) = .ok (.set (Token.ofCell a) (Token.ofCell b), rest) ∧
    decode (2#16 :: a :: rest) = .ok (.push (Token.ofCell a), rest) ∧
    decode (3#16 :: a :: rest) = .ok (.pop (Token.ofCell a), rest) ∧
    decode (4#16 :: a :: b :: c :: rest) = .ok (.eq (Token.ofCell a) (Token.ofCell b) (Token.ofCell c), rest) ∧
    decode (5#16 :: a :: b :: c :: rest) = .ok (.gt (Token.ofCell a) (Token.ofCell b) (Token.ofCell c), rest) ∧
    decode (6#16 :: a :: rest) = .ok (.jmp (Token.ofCell a), rest) ∧
    decode (7#16 :: a :: b :: rest) = .ok (.jt (Token.ofCell a) (Token.ofCell b), rest) ∧
    decode (8#16 :: a :: b :: rest) = .ok (.jf (Token.ofCell a) (Token.ofCell b), rest) ∧
    decode (9#16 :: a :: b :: c :: rest) = .ok (.add (Token.ofCell a) (Token.ofCell b) (Token.ofCell c), rest) ∧
    decode (10#16 :: a :: b :: c :: rest) = .ok (.mult (Token.ofCell a) (Token.ofCell b) (Token.ofCell c), rest) ∧
    decode (11#16 :: a :: b :: c :: rest) = .ok (.mod (Token.ofCell a) (Token.ofCell b) (Token.ofCell c), rest) ∧
    decode (12#16 :: a :: b :: c :: rest) = .ok (.and (Token.ofCell a) (Token.ofCell b) (Token.ofCell c), rest) ∧
    decode (13#16 :: a :: b :: c :: rest) = .ok (.or (Token.ofCell a) (Token.ofCell b) (Token.ofCell c), rest) ∧
    decode (14#16 :: a :: b :: rest) = .ok (.not (Token.ofCell a) (Token.ofCell b), rest) ∧
    decode (15#16 :: a :: b :: rest) = .ok (.rmem (Token.ofCell a) (Token.ofCell b), rest) ∧
    decode (16#16 :: a :: b :: rest) = .ok (.wmem (Token.ofCell a) (Token.ofCell b), rest) ∧
    decode (17#16 :: a :: rest) = .ok (.call (Token.ofCell a), rest) ∧
    decode (18#16 :: rest) = .ok (.ret, rest) ∧
    decode (19#16 :: a :: rest) = .ok (.out (Token.ofCell a), rest) ∧
    decode (20#16 :: a :: rest) = .ok (.inp (Token.ofCell a), rest) ∧
    decode (21#16 :: rest) = .ok (.noop, rest)

/-- A few words written out: `add r0 r1 15`, `set r0 10`, `wmem r0 r1`, `in r7`, and the opcode cells 22 and 32768 that
no instruction has. -/
def Obligations.SampleWordsDecode : Prop :=
  decode [9#16, 0x8000#16, 0x8001#16, 0x000F#16] = .ok (.add (.register 0) (.register 1) (.literal 15#15), []) ∧
  decode [1#16, 0x8000#16, 0x000A#16] = .ok (.set (.register 0) (.literal 10#15), []) ∧
  decode [16#16, 0x8000#16, 0x8001#16] = .ok (.wmem (.register 0) (.register 1), []) ∧
  decode [20#16, 0x8007#16] = .ok (.inp (.register 7), []) ∧
  decode [22#16] = .error (.unknownOpcode 22#16) ∧
  decode [0x8000#16] = .error (.unknownOpcode 0x8000#16)

/-! ## The operand resolver -/

/-- `resolveValue` on every raw token (R80). -/
def Obligations.ResolveValueRule : Prop :=
  ∀ (t : Cell) (s : State),
    (t.toNat ≤ 32767 → resolveValue s (Token.ofCell t) = .ok t) ∧
    (∀ r : RegIx, t.toNat = 32768 + r.val → resolveValue s (Token.ofCell t) = .ok s.regs[r]) ∧
    (32776 ≤ t.toNat → resolveValue s (Token.ofCell t) = .error .invalidOperand)

/-- `resolveRegisterTarget` on every raw token (R81). -/
def Obligations.ResolveRegisterTargetRule : Prop :=
  ∀ t : Cell,
    (∀ r : RegIx, t.toNat = 32768 + r.val → resolveTarget (Token.ofCell t) = .ok r) ∧
    (t.toNat < 32768 ∨ 32776 ≤ t.toNat → resolveTarget (Token.ofCell t) = .error .invalidRegisterOperand)

/-- Every operand an instruction has is resolved before it has any effect, in the order A, B, C, used or not: the first
that cannot be resolved raises its fault and nothing else happens (R83). -/
def Obligations.OperandFaultBeforeEffect : Prop :=
  ∀ (i : Instr) (s : State) (e : Cause), operandFault i = some e →
    exec i s = .next { s with running := false, error := some e }

/-! ## The instructions, one rule each -/

/-- `halt` (R110). -/
def Obligations.HaltRule : Prop :=
  ∀ s : State, encode .halt = [0#16] ∧ exec .halt s = .next { s with running := false, pc := s.pc + 1#16 }

/-- `noop` (R111). -/
def Obligations.NoopRule : Prop :=
  ∀ s : State, encode .noop = [21#16] ∧ exec .noop s = .next { s with pc := s.pc + 1#16 }

/-- `set` (R115). -/
def Obligations.SetRule : Prop :=
  ∀ (a b : Token) (s : State),
    encode (.set a b) = [1#16, a.encode, b.encode] ∧
    (∀ e, resolveTarget a = .error e → e = .invalidRegisterOperand ∧
      exec (.set a b) s = .next { s with running := false, error := some e }) ∧
    (∀ r e, resolveTarget a = .ok r → resolveValue s b = .error e → e = .invalidOperand ∧
      exec (.set a b) s = .next { s with running := false, error := some e }) ∧
    ∀ r x, resolveTarget a = .ok r → resolveValue s b = .ok x →
      exec (.set a b) s = .next { s with regs := s.regs.set r x, pc := s.pc + 3#16 }

/-- `push` (R116); a full stack of FINITE depth raises StackOverflow. -/
def Obligations.PushRule : Prop :=
  ∀ (a : Token) (s : State),
    encode (.push a) = [2#16, a.encode] ∧
    (∀ e, resolveValue s a = .error e → e = .invalidOperand ∧
      exec (.push a) s = .next { s with running := false, error := some e }) ∧
    (∀ x, resolveValue s a = .ok x → (∀ d, s.params.stackDepth = some d → s.stack.length < d) →
      exec (.push a) s = .next { s with stack := s.stack ++ [x], pc := s.pc + 2#16 }) ∧
    ∀ x d, resolveValue s a = .ok x → s.params.stackDepth = some d → d ≤ s.stack.length →
      exec (.push a) s = .next { s with running := false, error := some .stackOverflow }

/-- `pop` (R117). -/
def Obligations.PopRule : Prop :=
  ∀ (a : Token) (s : State),
    encode (.pop a) = [3#16, a.encode] ∧
    (∀ e, resolveTarget a = .error e → e = .invalidRegisterOperand ∧
      exec (.pop a) s = .next { s with running := false, error := some e }) ∧
    (∀ r, resolveTarget a = .ok r → s.stack = [] →
      exec (.pop a) s = .next { s with running := false, error := some .stackUnderflow }) ∧
    ∀ r below v, resolveTarget a = .ok r → s.stack = below ++ [v] →
      exec (.pop a) s = .next { s with stack := below, regs := s.regs.set r v, pc := s.pc + 2#16 }

/-- `eq` (R120). -/
def Obligations.EqRule : Prop :=
  ∀ (a b c : Token) (s : State),
    encode (.eq a b c) = [4#16, a.encode, b.encode, c.encode] ∧
    (∀ e, operandFault (.eq a b c) = some e →
      exec (.eq a b c) s = .next { s with running := false, error := some e }) ∧
    ∀ r x y, resolveTarget a = .ok r → resolveValue s b = .ok x → resolveValue s c = .ok y →
      (x = y → exec (.eq a b c) s = .next { s with regs := s.regs.set r 1#16, pc := s.pc + 4#16 }) ∧
      (x ≠ y → exec (.eq a b c) s = .next { s with regs := s.regs.set r 0#16, pc := s.pc + 4#16 })

/-- `gt` (R121). -/
def Obligations.GtRule : Prop :=
  ∀ (a b c : Token) (s : State),
    encode (.gt a b c) = [5#16, a.encode, b.encode, c.encode] ∧
    (∀ e, operandFault (.gt a b c) = some e →
      exec (.gt a b c) s = .next { s with running := false, error := some e }) ∧
    ∀ r x y, resolveTarget a = .ok r → resolveValue s b = .ok x → resolveValue s c = .ok y →
      (y.toNat < x.toNat → exec (.gt a b c) s = .next { s with regs := s.regs.set r 1#16, pc := s.pc + 4#16 }) ∧
      (x.toNat ≤ y.toNat → exec (.gt a b c) s = .next { s with regs := s.regs.set r 0#16, pc := s.pc + 4#16 })

/-- `jmp` (R125): any 16-bit target is accepted. -/
def Obligations.JmpRule : Prop :=
  ∀ (a : Token) (s : State),
    encode (.jmp a) = [6#16, a.encode] ∧
    (∀ e, resolveValue s a = .error e → e = .invalidOperand ∧
      exec (.jmp a) s = .next { s with running := false, error := some e }) ∧
    ∀ x, resolveValue s a = .ok x → exec (.jmp a) s = .next { s with pc := x }

/-- `jt` (R126): B is resolved, and can fault, whether or not the jump is taken. -/
def Obligations.JtRule : Prop :=
  ∀ (a b : Token) (s : State),
    encode (.jt a b) = [7#16, a.encode, b.encode] ∧
    (∀ e, resolveValue s a = .error e → e = .invalidOperand ∧
      exec (.jt a b) s = .next { s with running := false, error := some e }) ∧
    (∀ x e, resolveValue s a = .ok x → resolveValue s b = .error e → e = .invalidOperand ∧
      exec (.jt a b) s = .next { s with running := false, error := some e }) ∧
    ∀ x y, resolveValue s a = .ok x → resolveValue s b = .ok y →
      (x ≠ 0#16 → exec (.jt a b) s = .next { s with pc := y }) ∧
      (x = 0#16 → exec (.jt a b) s = .next { s with pc := s.pc + 3#16 })

/-- `jf` (R127): B is resolved, and can fault, whether or not the jump is taken. -/
def Obligations.JfRule : Prop :=
  ∀ (a b : Token) (s : State),
    encode (.jf a b) = [8#16, a.encode, b.encode] ∧
    (∀ e, resolveValue s a = .error e → e = .invalidOperand ∧
      exec (.jf a b) s = .next { s with running := false, error := some e }) ∧
    (∀ x e, resolveValue s a = .ok x → resolveValue s b = .error e → e = .invalidOperand ∧
      exec (.jf a b) s = .next { s with running := false, error := some e }) ∧
    ∀ x y, resolveValue s a = .ok x → resolveValue s b = .ok y →
      (x = 0#16 → exec (.jf a b) s = .next { s with pc := y }) ∧
      (x ≠ 0#16 → exec (.jf a b) s = .next { s with pc := s.pc + 3#16 })

/-- `call` (R128); a full stack of FINITE depth raises StackOverflow, with nothing pushed and the pc unchanged. -/
def Obligations.CallRule : Prop :=
  ∀ (a : Token) (s : State),
    encode (.call a) = [17#16, a.encode] ∧
    (∀ e, resolveValue s a = .error e → e = .invalidOperand ∧
      exec (.call a) s = .next { s with running := false, error := some e }) ∧
    (∀ x, resolveValue s a = .ok x → (∀ d, s.params.stackDepth = some d → s.stack.length < d) →
      exec (.call a) s = .next { s with stack := s.stack ++ [s.pc + 2#16], pc := x }) ∧
    ∀ x d, resolveValue s a = .ok x → s.params.stackDepth = some d → d ≤ s.stack.length →
      exec (.call a) s = .next { s with running := false, error := some .stackOverflow }

/-- `ret` (R129): an empty stack is a graceful halt, the pc unchanged and no fault. -/
def Obligations.RetRule : Prop :=
  ∀ s : State,
    encode .ret = [18#16] ∧
    (s.stack = [] → exec .ret s = .next { s with running := false }) ∧
    ∀ below v, s.stack = below ++ [v] → exec .ret s = .next { s with stack := below, pc := v }

/-- `add` (R136). -/
def Obligations.AddRule : Prop :=
  ∀ (a b c : Token) (s : State),
    encode (.add a b c) = [9#16, a.encode, b.encode, c.encode] ∧
    (∀ e, operandFault (.add a b c) = some e →
      exec (.add a b c) s = .next { s with running := false, error := some e }) ∧
    ∀ r x y, resolveTarget a = .ok r → resolveValue s b = .ok x → resolveValue s c = .ok y →
      ∃ v : Cell, v.toNat = (x.toNat + y.toNat) % 32768 ∧
        exec (.add a b c) s = .next { s with regs := s.regs.set r v, pc := s.pc + 4#16 }

/-- `mult` (R137): the exact product first, then the reduction. -/
def Obligations.MultRule : Prop :=
  ∀ (a b c : Token) (s : State),
    encode (.mult a b c) = [10#16, a.encode, b.encode, c.encode] ∧
    (∀ e, operandFault (.mult a b c) = some e →
      exec (.mult a b c) s = .next { s with running := false, error := some e }) ∧
    ∀ r x y, resolveTarget a = .ok r → resolveValue s b = .ok x → resolveValue s c = .ok y →
      ∃ v : Cell, v.toNat = (x.toNat * y.toNat) % 32768 ∧
        exec (.mult a b c) s = .next { s with regs := s.regs.set r v, pc := s.pc + 4#16 }

/-- `mod` (R138): a divisor of 0 raises ModByZero, and the destination is not written. -/
def Obligations.ModRule : Prop :=
  ∀ (a b c : Token) (s : State),
    encode (.mod a b c) = [11#16, a.encode, b.encode, c.encode] ∧
    (∀ e, operandFault (.mod a b c) = some e →
      exec (.mod a b c) s = .next { s with running := false, error := some e }) ∧
    ∀ r x y, resolveTarget a = .ok r → resolveValue s b = .ok x → resolveValue s c = .ok y →
      (y = 0#16 → exec (.mod a b c) s = .next { s with running := false, error := some .modByZero }) ∧
      (y ≠ 0#16 → ∃ v : Cell, v.toNat = x.toNat % y.toNat ∧
        exec (.mod a b c) s = .next { s with regs := s.regs.set r v, pc := s.pc + 4#16 })

/-- `and` (R139): bit by bit on the whole cell. -/
def Obligations.AndRule : Prop :=
  ∀ (a b c : Token) (s : State),
    encode (.and a b c) = [12#16, a.encode, b.encode, c.encode] ∧
    (∀ e, operandFault (.and a b c) = some e →
      exec (.and a b c) s = .next { s with running := false, error := some e }) ∧
    ∀ r x y, resolveTarget a = .ok r → resolveValue s b = .ok x → resolveValue s c = .ok y →
      ∃ v : Cell, (∀ k, v.getLsbD k = (x.getLsbD k && y.getLsbD k)) ∧
        exec (.and a b c) s = .next { s with regs := s.regs.set r v, pc := s.pc + 4#16 }

/-- `or` (R140): bit by bit on the whole cell. -/
def Obligations.OrRule : Prop :=
  ∀ (a b c : Token) (s : State),
    encode (.or a b c) = [13#16, a.encode, b.encode, c.encode] ∧
    (∀ e, operandFault (.or a b c) = some e →
      exec (.or a b c) s = .next { s with running := false, error := some e }) ∧
    ∀ r x y, resolveTarget a = .ok r → resolveValue s b = .ok x → resolveValue s c = .ok y →
      ∃ v : Cell, (∀ k, v.getLsbD k = (x.getLsbD k || y.getLsbD k)) ∧
        exec (.or a b c) s = .next { s with regs := s.regs.set r v, pc := s.pc + 4#16 }

/-- `not` (R141): the 15-bit complement, 32767 - (b mod 32768). -/
def Obligations.NotRule : Prop :=
  ∀ (a b : Token) (s : State),
    encode (.not a b) = [14#16, a.encode, b.encode] ∧
    (∀ e, operandFault (.not a b) = some e →
      exec (.not a b) s = .next { s with running := false, error := some e }) ∧
    ∀ r x, resolveTarget a = .ok r → resolveValue s b = .ok x →
      ∃ v : Cell, v.toNat = 32767 - x.toNat % 32768 ∧ v = ~~~x &&& 0x7FFF#16 ∧
        exec (.not a b) s = .next { s with regs := s.regs.set r v, pc := s.pc + 3#16 }

/-- `rmem` (R145): an address of 32768 or more raises OutOfBoundsAddress. -/
def Obligations.RmemRule : Prop :=
  ∀ (a b : Token) (s : State),
    encode (.rmem a b) = [15#16, a.encode, b.encode] ∧
    (∀ e, operandFault (.rmem a b) = some e →
      exec (.rmem a b) s = .next { s with running := false, error := some e }) ∧
    ∀ r x, resolveTarget a = .ok r → resolveValue s b = .ok x →
      (x.toNat ≤ 32767 →
        exec (.rmem a b) s = .next { s with regs := s.regs.set r (s.mem.read x.toNat), pc := s.pc + 3#16 }) ∧
      (32767 < x.toNat → exec (.rmem a b) s = .next { s with running := false, error := some .outOfBoundsAddress })

/-- `wmem` (R146), on canonical memory: the one cell reads the value written, every other cell reads as before, and
nothing but memory and the pc changes. An address of 32768 or more raises OutOfBoundsAddress. -/
def Obligations.WmemRule : Prop :=
  ∀ (a b : Token) (s : State), s.mem.wf = true →
    encode (.wmem a b) = [16#16, a.encode, b.encode] ∧
    (∀ e, operandFault (.wmem a b) = some e →
      exec (.wmem a b) s = .next { s with running := false, error := some e }) ∧
    ∀ x y, resolveValue s a = .ok x → resolveValue s b = .ok y →
      (x.toNat ≤ 32767 → ∃ m : Memory,
        exec (.wmem a b) s = .next { s with mem := m, pc := s.pc + 3#16 } ∧
        m.read x.toNat = y ∧ ∀ k, k ≠ x.toNat → m.read k = s.mem.read k) ∧
      (32767 < x.toNat → exec (.wmem a b) s = .next { s with running := false, error := some .outOfBoundsAddress })

/-- `out` with `emit` (R150, R152): a character is appended; the newline, code 10, hands the line without the newline to
the sink once and clears the buffer. The hypothesis on the depth is met by every buffer with the default depth. That the
lines handed to the sink stand in the state is the model's choice (log entry 5); that the newline is the code 10 is
presumed (log entry 11). -/
def Obligations.OutRule : Prop :=
  ∀ (a : Token) (s : State),
    encode (.out a) = [19#16, a.encode] ∧
    (∀ e, resolveValue s a = .error e → e = .invalidOperand ∧
      exec (.out a) s = .next { s with running := false, error := some e }) ∧
    ∀ x, resolveValue s a = .ok x →
      (x = 10#16 → exec (.out a) s = .next { s with sink := s.sink ++ [s.outbuf], outbuf := [], pc := s.pc + 2#16 }) ∧
      (x ≠ 10#16 → (∀ d, s.params.outbufDepth = some d → s.outbuf.length < d) →
        exec (.out a) s = .next { s with outbuf := s.outbuf ++ [x], pc := s.pc + 2#16 })

/-- `in` with `nextInputChar` (R151, R154): from the pending line, or from the next line of the source, which is then the
pending line. A bad destination asks for no line. That the source's lines stand in the state is the model's choice (log
entry 3). -/
def Obligations.InRule : Prop :=
  ∀ (a : Token) (s : State),
    encode (.inp a) = [20#16, a.encode] ∧
    (∀ e, resolveTarget a = .error e → e = .invalidRegisterOperand ∧
      exec (.inp a) s = .next { s with running := false, error := some e }) ∧
    ∀ r, resolveTarget a = .ok r →
      (∀ c rest, s.inbuf = c :: rest →
        exec (.inp a) s = .next { s with inbuf := rest, regs := s.regs.set r c, pc := s.pc + 2#16 }) ∧
      (∀ c rest later, s.inbuf = [] → s.source = (c :: rest) :: later →
        (∀ d, s.params.inbufDepth = some d → rest.length + 1 ≤ d) →
        exec (.inp a) s =
          .next { s with inbuf := rest, source := later, regs := s.regs.set r c, pc := s.pc + 2#16 })

/-- `in` waits (R155): while the source has not answered, or has answered with an empty line (R157), nothing changes and the
core is Running. That a wait is a step to the same state is the model's choice (log entries 3 and 4). -/
def Obligations.InWaitsUnchanged : Prop :=
  ∀ (a : Token) (r : RegIx) (s : State) (later : List (List Cell)), resolveTarget a = .ok r → s.inbuf = [] →
    s.source = [] ∨ s.source = [] :: later → exec (.inp a) s = .next s

/-- A FINITE line buffer that is too short is the one thing the model refuses (U13, log entry 8). -/
def Obligations.FiniteLineBufferRefused : Prop :=
  (∀ (a : Token) (s : State) (x : Cell) (d : Nat), resolveValue s a = .ok x → x ≠ 10#16 → s.params.outbufDepth = some d →
    d ≤ s.outbuf.length → exec (.out a) s = .refused .outbufDepthExceeded) ∧
  (∀ (a : Token) (s : State) (r : RegIx) (d : Nat) (c : Cell) (rest : List Cell) (later : List (List Cell)),
    resolveTarget a = .ok r → s.inbuf = [] → s.source = (c :: rest) :: later → s.params.inbufDepth = some d →
    d < rest.length + 1 → exec (.inp a) s = .refused .inbufDepthExceeded)

/-! ## Frames: what an instruction leaves unchanged when it answers a next state -/

/-- The ten instructions that only write a register: every other register, memory, the stack, the line buffers, the sink,
the source and the parameters are unchanged; `running` and `error` too, unless the instruction faults. -/
def Obligations.RegisterWriteFrame : Prop :=
  ∀ (i : Instr) (s s' : State),
    i.opcode ∈ [Opcode.set, .eq, .gt, .add, .mult, .mod, .and, .or, .not, .rmem] → exec i s = .next s' →
    (∀ q : RegIx, i.operands.head? ≠ some (.register q) → s'.regs[q] = s.regs[q]) ∧
    (∀ k, s'.mem.read k = s.mem.read k) ∧ s'.mem = s.mem ∧ s'.stack = s.stack ∧ s'.outbuf = s.outbuf ∧
    s'.inbuf = s.inbuf ∧ s'.sink = s.sink ∧ s'.source = s.source ∧ s'.params = s.params ∧
    ((s'.running = s.running ∧ s'.error = s.error) ∨ ∃ e, s' = { s with running := false, error := some e })

/-- `push`, `pop`, `call`, `ret`: memory, the line buffers, the sink, the source and the parameters are unchanged; of the
registers only the destination of `pop` may change; the stack changes only at its top; `running` and `error` are
unchanged unless the instruction faults or is a `ret` on an empty stack. -/
def Obligations.StackFrame : Prop :=
  ∀ (i : Instr) (s s' : State), i.opcode ∈ [Opcode.push, .pop, .call, .ret] → exec i s = .next s' →
    (∀ k, s'.mem.read k = s.mem.read k) ∧ s'.mem = s.mem ∧ s'.outbuf = s.outbuf ∧ s'.inbuf = s.inbuf ∧
    s'.sink = s.sink ∧ s'.source = s.source ∧ s'.params = s.params ∧
    (∀ q : RegIx, i ≠ .pop (.register q) → s'.regs[q] = s.regs[q]) ∧
    (i.opcode ∈ [Opcode.push, .call] → s'.stack = s.stack ∨ ∃ v, s'.stack = s.stack ++ [v]) ∧
    (i.opcode ∈ [Opcode.pop, .ret] → s'.stack = s.stack ∨ ∃ v, s.stack = s'.stack ++ [v]) ∧
    ((s'.running = s.running ∧ s'.error = s.error) ∨ (∃ e, s' = { s with running := false, error := some e }) ∨
      (i = .ret ∧ s.stack = [] ∧ s' = { s with running := false }))

/-- `halt`, `noop`, `jmp`, `jt`, `jf`: nothing but the pc, `running` and `error` changes; `error` only in a fault, `running`
only in a fault or by `halt`. -/
def Obligations.ControlFrame : Prop :=
  ∀ (i : Instr) (s s' : State), i.opcode ∈ [Opcode.halt, .noop, .jmp, .jt, .jf] → exec i s = .next s' →
    s' = { s with pc := s'.pc, running := s'.running, error := s'.error } ∧ (∀ k, s'.mem.read k = s.mem.read k) ∧
    (∀ q : RegIx, s'.regs[q] = s.regs[q]) ∧
    ((s'.error = s.error ∧ s'.running = (s.running && decide (i ≠ .halt))) ∨
      ∃ e, s' = { s with running := false, error := some e })

/-- `wmem`: every cell of memory outside the one stored to reads as before, and so do all registers, the stack, the line
buffers, the sink, the source and the parameters; `running` and `error` are unchanged unless the instruction faults. -/
def Obligations.StoreFrame : Prop :=
  ∀ (a b : Token) (s s' : State), exec (.wmem a b) s = .next s' →
    (∀ k, (∀ x y, resolveValue s a = .ok x → resolveValue s b = .ok y → x.toNat ≤ 32767 → k ≠ x.toNat) →
      s'.mem.read k = s.mem.read k) ∧
    s'.regs = s.regs ∧ s'.stack = s.stack ∧ s'.outbuf = s.outbuf ∧ s'.inbuf = s.inbuf ∧ s'.sink = s.sink ∧
    s'.source = s.source ∧ s'.params = s.params ∧
    ((s'.running = s.running ∧ s'.error = s.error) ∨ ∃ e, s' = { s with running := false, error := some e })

/-- `out` and `in`: memory, the stack and the parameters are unchanged; `out` leaves every register, `inbuf` and the source,
`in` leaves every register but its destination, `outbuf` and the sink. -/
def Obligations.IoFrame : Prop :=
  ∀ (a : Token) (s s' : State), (exec (.out a) s = .next s' ∨ exec (.inp a) s = .next s') →
    (∀ k, s'.mem.read k = s.mem.read k) ∧ s'.mem = s.mem ∧ s'.stack = s.stack ∧ s'.params = s.params ∧
    (exec (.out a) s = .next s' → s'.regs = s.regs ∧ s'.inbuf = s.inbuf ∧ s'.source = s.source) ∧
    (exec (.inp a) s = .next s' → s'.outbuf = s.outbuf ∧ s'.sink = s.sink ∧
      ∀ q : RegIx, a ≠ .register q → s'.regs[q] = s.regs[q]) ∧
    ((s'.running = s.running ∧ s'.error = s.error) ∨ ∃ e, s' = { s with running := false, error := some e })

/-! ## The step -/

/-- A step runs the decoded instruction: when the cells at the pc are the encoding of a well-formed instruction, all inside
Memory, and its opcode is implemented, a running core's step is exec of that instruction at that state. -/
def Obligations.StepRunsDecodedInstruction : Prop :=
  ∀ (i : Instr) (s : State), s.running = true → i.wf = true → s.params.implemented.contains i.opcode.code = true →
    s.pc.toNat + (encode i).length ≤ 32768 →
    (∀ k, k < (encode i).length → (encode i)[k]? = some (s.mem.read (s.pc.toNat + k))) → step s = exec i s

/-- The faults of a fetch, in the order of the phases (R91 to R94): a pc beyond Memory, an opcode cell above 21, an opcode
outside IMPLEMENTED, operand cells beyond Memory. -/
def Obligations.FetchFaults : Prop :=
  ∀ s : State, s.running = true →
    (32767 < s.pc.toNat → step s = .next { s with running := false, error := some .outOfBoundsPC }) ∧
    (s.pc.toNat ≤ 32767 → 21 < (s.mem.read s.pc.toNat).toNat →
      step s = .next { s with running := false, error := some .unknownOpcode }) ∧
    ∀ o : Opcode, s.pc.toNat ≤ 32767 → (s.mem.read s.pc.toNat).toNat = o.code →
      (s.params.implemented.contains o.code = false →
        step s = .next { s with running := false, error := some .unimplementedOpcode }) ∧
      (s.params.implemented.contains o.code = true → 32768 < s.pc.toNat + o.length →
        step s = .next { s with running := false, error := some .outOfBoundsPC })

/-- Which fault an instruction reports (R181): the first cause that applies, in the order fetch, opcode lookup, operand
fetch, operands A, B, C, execute. When none applies no fault is raised. -/
def Obligations.FaultPriority : Prop :=
  ∀ s : State, s.running = true → s.error = none →
    (∀ e, s.dueFault = some e → step s = .next { s with running := false, error := some e }) ∧
    (s.dueFault = none → ∀ s', step s = .next s' → s'.error = none)

/-- Faults are precise (R99): a step that latches a cause changes nothing but `running` and `error`. -/
def Obligations.FaultsArePrecise : Prop :=
  ∀ (s s' : State) (e : Cause), s.error = none → step s = .next s' → s'.error = some e →
    s' = { s with running := false, error := some e }

/-- The state machine (R98): Halted has no step; a running core leaves Running only by a fault, by `halt`, or by `ret` on an
empty stack. That a halted core's step is a fault of the model is its own choice (log entry 6). -/
def Obligations.RunningLeftOnlyThreeWays : Prop :=
  (∀ s : State, s.running = false → step s = .fault .halted) ∧
  ∀ s s' : State, step s = .next s' → s'.running = false →
    (∃ e, s' = { s with running := false, error := some e }) ∨
    (s.fetch = .ok .halt ∧ s'.error = s.error) ∨
    (s.fetch = .ok .ret ∧ s.stack = [] ∧ s'.error = s.error)

/-- A running core whose line buffers have no finite depth always has a next state: no instruction, operand or datum ends
a run in a stop of the model. That a waiting `in` has a next state, its own state again, is the model's choice (log entries
3 and 4): the spec's transition is enabled only when the source supplies a line (R155), and never on an empty one (U14). -/
def Obligations.RunningCoreAlwaysSteps : Prop :=
  ∀ s : State, s.running = true → s.params.outbufDepth = none → s.params.inbufDepth = none → ∃ s', step s = .next s'

/-- How pc advances (R97): the table of pc after a step, for every instruction that neither faults nor waits, as plain
addition that never wraps. A wait is told by the state being the same, the model's choice (log entry 3). -/
def Obligations.PcAdvanceTable : Prop :=
  ∀ (s s' : State) (i : Instr), s.fetch = .ok i → step s = .next s' → s'.error = none →
    (i.opcode.advances = true → (∀ a, i = .inp a → s' ≠ s) → s'.pc.toNat = s.pc.toNat + i.opcode.length) ∧
    (∀ a, (i = .jmp a ∨ i = .call a) → resolveValue s a = .ok s'.pc) ∧
    (∀ a b x y, i = .jt a b → resolveValue s a = .ok x → resolveValue s b = .ok y →
      s'.pc.toNat = if x ≠ 0#16 then y.toNat else s.pc.toNat + 3) ∧
    (∀ a b x y, i = .jf a b → resolveValue s a = .ok x → resolveValue s b = .ok y →
      s'.pc.toNat = if x = 0#16 then y.toNat else s.pc.toNat + 3) ∧
    (i = .ret → s'.pc = s.stack.getLast?.getD s.pc)

/-- Which instruction may write which state (R23, R28 to R31): the registers only the twelve with a destination, memory only
`wmem`, the stack only `push`, `pop`, `call`, `ret`, the output side only `out`, the input side only `in`; the parameters
none. -/
def Obligations.WritersOfEachState : Prop :=
  ∀ s s' : State, step s = .next s' →
    (s'.regs ≠ s.regs → ∃ i, s.fetch = .ok i ∧
      i.opcode ∈ [Opcode.set, .pop, .eq, .gt, .add, .mult, .mod, .and, .or, .not, .rmem, .inp]) ∧
    (s'.mem ≠ s.mem → ∃ a b, s.fetch = .ok (.wmem a b)) ∧
    (s'.stack ≠ s.stack → ∃ i, s.fetch = .ok i ∧ i.opcode ∈ [Opcode.push, .pop, .call, .ret]) ∧
    ((s'.outbuf ≠ s.outbuf ∨ s'.sink ≠ s.sink) → ∃ a, s.fetch = .ok (.out a)) ∧
    ((s'.inbuf ≠ s.inbuf ∨ s'.source ≠ s.source) → ∃ a, s.fetch = .ok (.inp a)) ∧
    s'.params = s.params

/-! ## Invariants -/

/-- The machine invariant holds at reset. -/
def Obligations.InvariantAtReset : Prop :=
  State.reset.inv = true ∧ State.reset.wordInv = true

/-- Both invariants hold after reset with any image the loader accepts. -/
def Obligations.InvariantsAfterLoad : Prop :=
  ∀ (ws : List Cell) (s : State), State.resetWith ws = some s →
    s.inv = true ∧ ((∀ w ∈ ws, w.toNat ≤ 32775) → s.wordInv = true)

/-- Every step keeps the machine invariant: memory stays canonical, a latched fault means Halted, neither the output buffer
nor a delivered line holds a newline, and no buffer outgrows its depth. -/
def Obligations.StepKeepsInvariant : Prop :=
  ∀ s s' : State, s.inv = true → step s = .next s' → s'.inv = true

/-- The Word range (R21): a step keeps it except in exactly three cases, `rmem` of a wide cell, `call` at pc 32766 and `in`
of a wide code, in which it is left. -/
def Obligations.WordRangeLeftInExactlyThreeCases : Prop :=
  ∀ s s' : State, s.inv = true → s.wordInv = true → step s = .next s' → (s'.wordInv = true ↔ s.widens = false)

/-! ## What a program cannot see -/

/-- Programs cannot read the output side: two states that differ only in `outbuf` and the sink trace step alike and still
differ only there (no finite output depth). The trace is the model's own field (log entry 5). -/
def Obligations.OutputSideNotReadable : Prop :=
  ∀ (s : State) (o : List Cell) (k : List (List Cell)), s.params.outbufDepth = none →
    (∀ s', step s = .next s' → ∃ o' k', step { s with outbuf := o, sink := k } = .next { s' with outbuf := o', sink := k' }) ∧
    (∀ e, step s = .fault e → step { s with outbuf := o, sink := k } = .fault e) ∧
    (∀ e, step s = .refused e → step { s with outbuf := o, sink := k } = .refused e)

/-- Lines the source supplies later do not matter now: unless a line is requested and none is there, a step of any
instruction is the same with one more line to come, and leaves it to come. That the source's lines stand in the state is
the model's choice (log entry 3). -/
def Obligations.LaterLinesDoNotMatter : Prop :=
  ∀ (s s' : State) (line : List Cell), ¬(s.lineRequested = true ∧ s.source = []) → step s = .next s' →
    step (s.supplyLine line) = .next (s'.supplyLine line)

/-- A line is requested only when the buffer is empty and a character is needed (R154): the source loses a line only to an
`in` with a register destination and no pending character, one line at a time, the next one, and never an empty one. -/
def Obligations.LineTakenOnlyWhenNeeded : Prop :=
  ∀ s s' : State, step s = .next s' → s'.source ≠ s.source →
    s.lineRequested = true ∧ ∃ c rest, s.source = (c :: rest) :: s'.source ∧ s'.inbuf = rest

/-- Exactly one sink transaction per completed line (R152, R156): the trace grows by the buffered line, once, only in a step
that emits a newline, and the buffer is then empty. The trace is the model's own field (log entry 5), and the newline the
presumed code 10 (log entry 11). -/
def Obligations.SinkGetsEachLineOnce : Prop :=
  ∀ s s' : State, step s = .next s' → s'.sink ≠ s.sink →
    s'.sink = s.sink ++ [s.outbuf] ∧ s'.outbuf = [] ∧
    ∃ a, s.fetch = .ok (.out a) ∧ resolveValue s a = .ok 10#16

/-! ## Pairs of instructions -/

/-- A store is seen by the very next fetch (R53, R201): after a `wmem` the cell reads the value stored, and if it is the cell
at the new pc, that is the opcode cell the next step fetches. -/
def Obligations.StoreSeenByNextFetch : Prop :=
  ∀ (s : State) (a b : Token) (x y : Cell), s.mem.wf = true → s.running = true → s.fetch = .ok (.wmem a b) →
    resolveValue s a = .ok x → resolveValue s b = .ok y → x.toNat ≤ 32767 →
    ∃ t, step s = .next t ∧ t.memRead x.toNat = some y ∧ (t.pc = x → t.fetchCells.head? = some y)

/-- `push x` then `pop r` leaves r = x and the stack as it was, for a literal and for a register. -/
def Obligations.PushThenPopMovesValue : Prop :=
  ∀ (s : State) (a : Token) (x : Cell) (r : RegIx), resolveValue s a = .ok x →
    (∀ d, s.params.stackDepth = some d → s.stack.length < d) →
    ∃ t u, exec (.push a) s = .next t ∧ exec (.pop (.register r)) t = .next u ∧ u.regs[r] = x ∧ u.stack = s.stack

/-- `call T`, then anything that leaves the stack as it found it, then `ret`, resumes at the instruction after the `call`. -/
def Obligations.CallThenRetResumesAfterCall : Prop :=
  ∀ (s t u : State) (a : Token) (x : Cell), resolveValue s a = .ok x →
    (∀ d, s.params.stackDepth = some d → s.stack.length < d) → exec (.call a) s = .next t → u.stack = t.stack →
    t.pc = x ∧ ∃ v, exec .ret u = .next v ∧ v.pc = s.pc + 2#16 ∧ v.stack = s.stack

/-- `wmem A,V` then `rmem R,A` yields R = V, for any valid address and value (R46). -/
def Obligations.StoreThenLoadReturnsValue : Prop :=
  ∀ (s : State) (a b : Token) (r : RegIx) (x y : Cell), s.mem.wf = true → resolveValue s a = .ok x → resolveValue s b = .ok y →
    x.toNat ≤ 32767 →
    ∃ t u, exec (.wmem a b) s = .next t ∧ exec (.rmem (.register r) a) t = .next u ∧ u.regs[r] = y

/-! ## Reset and load -/

/-- Reset with an image (R35, R56): the image's words at address 0 upward, zero elsewhere, every other component at its reset
value; the reset event leaves the same core from any state (R195). -/
def Obligations.ResetLeavesImageAndZeros : Prop :=
  ∀ (ws : List Cell) (before : State), ws.length ≤ 32768 →
    ∃ s, State.applyReset ws before = some s ∧
      (∀ k (h : k < ws.length), s.memRead k = some ws[k]) ∧
      (∀ k, ws.length ≤ k → k ≤ 32767 → s.memRead k = some 0#16) ∧
      (∀ r : RegIx, s.regs[r] = 0#16) ∧ s.stack = [] ∧ s.pc = 0#16 ∧ s.running = true ∧ s.error = none ∧
      s.outbuf = [] ∧ s.inbuf = []

/-- The image format (R72): bytes are accepted exactly when they are the little-endian bytes of words of at most 32775, which
are then the image; so an odd length, and a word of 32776 or more wherever it stands, are rejected. -/
def Obligations.ImageFormatAccepted : Prop :=
  (∀ (bytes : List (BitVec 8)) (ws : List Cell), imageWords bytes = .ok ws ↔
    bytes = ws.flatMap (fun w : Cell => [w.setWidth 8, (w >>> 8).setWidth 8]) ∧ ∀ w ∈ ws, w.toNat ≤ 32775) ∧
  (∀ bytes : List (BitVec 8), bytes.length % 2 = 1 → ∃ e, imageWords bytes = .error e) ∧
  (∀ ws : List Cell, (∃ w ∈ ws, 32776 ≤ w.toNat) →
    ∃ e, imageWords (ws.flatMap fun w : Cell => [w.setWidth 8, (w >>> 8).setWidth 8]) = .error e)

/-- The status outputs show `running` and the code of `error` (R191), each of the ten codes as the table of R170 has it; they
tell Running, graceful halt and faulted halt apart, and no two causes share a code. -/
def Obligations.StatusTellsConditionsApart : Prop :=
  (∀ s : State, s.status = (s.running, errorCode s.error)) ∧
  errorCode none = 0 ∧ errorCode (some .outOfBoundsPC) = 1 ∧ errorCode (some .unknownOpcode) = 2 ∧
  errorCode (some .unimplementedOpcode) = 3 ∧ errorCode (some .invalidOperand) = 4 ∧
  errorCode (some .invalidRegisterOperand) = 5 ∧ errorCode (some .stackUnderflow) = 6 ∧
  errorCode (some .modByZero) = 7 ∧ errorCode (some .outOfBoundsAddress) = 8 ∧ errorCode (some .stackOverflow) = 9 ∧
  (∀ s : State, s.inv = true →
    (s.running = true → s.status = (true, 0)) ∧
    (s.graceful = true ↔ s.status = (false, 0)) ∧
    (s.faulted = true ↔ s.status.1 = false ∧ 1 ≤ s.status.2 ∧ s.status.2 ≤ 9)) ∧
  (∀ x y : Option Cause, errorCode x = errorCode y → x = y)
end

