-- ==== Sys2Proof/Laws/Codec.lean ====
section
/-! SUPPORT. Tokens and opcode numbers, one at a time: decoding undoes encoding and the other way round. -/

namespace Sys2Proof

@[simp] theorem Opcode.ofCode?_code (o : Opcode) : Opcode.ofCode? o.code = some o := by cases o <;> rfl

theorem Opcode.code_of_ofCode? {n : Nat} {o : Opcode} (h : Opcode.ofCode? n = some o) : o.code = n := by
  unfold Opcode.ofCode? at h
  split at h <;> cases h <;> rfl

theorem Opcode.ofCode?_eq_none {n : Nat} : Opcode.ofCode? n = none ↔ 21 < n := by
  constructor
  · intro h
    by_contra hn
    have : n ≤ 21 := by omega
    interval_cases n <;> simp [Opcode.ofCode?] at h
  · intro h
    unfold Opcode.ofCode?
    split <;> first | omega | rfl

@[simp] theorem Opcode.cell_toNat (o : Opcode) : o.cell.toNat = o.code := by cases o <;> rfl

theorem Token.ofCell_literal {c : Cell} (h : c.toNat < 32768) : Token.ofCell c = .literal (c.setWidth 15) := if_pos h

theorem Token.ofCell_register {c : Cell} (h : 32768 ≤ c.toNat) (h' : c.toNat < 32776) :
    Token.ofCell c = .register (Fin.ofNat 8 (c.toNat - 32768)) := by
  rw [Token.ofCell, if_neg (by omega), if_pos h']

/-- The cell 32768 + i is register i. -/
theorem Token.ofCell_of_register {c : Cell} {r : RegIx} (h : c.toNat = 32768 + r.val) : Token.ofCell c = .register r := by
  have hr := r.isLt
  rw [Token.ofCell_register (by omega) (by omega), h, Nat.add_sub_cancel_left]
  exact congrArg Token.register (Fin.ext (Nat.mod_eq_of_lt hr))

theorem Token.ofCell_invalid {c : Cell} (h : 32776 ≤ c.toNat) : Token.ofCell c = .invalid c := by
  rw [Token.ofCell, if_neg (by omega), if_neg (by omega)]

/-- A well-formed token is read back from its cell. -/
theorem Token.ofCell_encode {t : Token} (h : t.wf = true) : Token.ofCell t.encode = t := by
  cases t with
  | literal v =>
    have hv := v.isLt
    have h1 : (v.setWidth 16 : Cell).toNat = v.toNat := by
      rw [BitVec.toNat_setWidth]
      exact Nat.mod_eq_of_lt (by omega)
    rw [show (Token.literal v).encode = v.setWidth 16 from rfl, Token.ofCell_literal (by omega)]
    congr 1
    apply BitVec.eq_of_toNat_eq
    rw [BitVec.toNat_setWidth, h1]
    exact Nat.mod_eq_of_lt hv
  | register r =>
    have hr := r.isLt
    have h1 : (BitVec.ofNat 16 (32768 + r.val)).toNat = 32768 + r.val := by
      rw [BitVec.toNat_ofNat]
      exact Nat.mod_eq_of_lt (by omega)
    exact Token.ofCell_of_register h1
  | invalid t =>
    have ht : 32776 ≤ t.toNat := by simpa [Token.wf] using h
    exact Token.ofCell_invalid ht

/-- Every cell is the encoding of the token it is read as. -/
theorem Token.encode_ofCell (c : Cell) : (Token.ofCell c).encode = c := by
  have hc := c.isLt
  by_cases h : c.toNat < 32768
  · rw [Token.ofCell_literal h]
    apply BitVec.eq_of_toNat_eq
    simp only [Token.encode, BitVec.toNat_setWidth]
    omega
  · by_cases h' : c.toNat < 32776
    · rw [Token.ofCell_register (by omega) h']
      apply BitVec.eq_of_toNat_eq
      simp only [Token.encode, BitVec.toNat_ofNat, Fin.val_ofNat]
      omega
    · rw [Token.ofCell_invalid (by omega)]
      rfl

/-- Every cell is read as a well-formed token. -/
theorem Token.wf_ofCell (c : Cell) : (Token.ofCell c).wf = true := by
  by_cases h : c.toNat < 32768
  · rw [Token.ofCell_literal h]
    rfl
  · by_cases h' : c.toNat < 32776
    · rw [Token.ofCell_register (by omega) h']
      rfl
    · rw [Token.ofCell_invalid (by omega)]
      exact decide_eq_true (by omega)

/-- The number of operands of an instruction is that of its opcode's forms. -/
theorem Instr.operands_length (i : Instr) : i.operands.length = i.opcode.forms.length := by cases i <;> rfl

/-- The length of an encoding is the length the opcode map gives (R69). -/
theorem encode_length (i : Instr) : (encode i).length = i.opcode.length := by
  simp [encode, Opcode.length, Instr.operands_length]

end Sys2Proof
end

