-- ==== Sys2Proof/Laws/State.lean ====
section
/-! SUPPORT. One lemma per field per update of the state, so that no later proof unfolds a record update. -/

namespace Sys2Proof.Machine

/-! ## setReg -/

@[simp] theorem State.setReg_mem (s : State) (r : RegIx) (v : Cell) : (s.setReg r v).mem = s.mem := rfl
@[simp] theorem State.setReg_regs (s : State) (r : RegIx) (v : Cell) : (s.setReg r v).regs = s.regs.set r v := rfl
@[simp] theorem State.setReg_stack (s : State) (r : RegIx) (v : Cell) : (s.setReg r v).stack = s.stack := rfl
@[simp] theorem State.setReg_pc (s : State) (r : RegIx) (v : Cell) : (s.setReg r v).pc = s.pc := rfl
@[simp] theorem State.setReg_running (s : State) (r : RegIx) (v : Cell) : (s.setReg r v).running = s.running := rfl
@[simp] theorem State.setReg_error (s : State) (r : RegIx) (v : Cell) : (s.setReg r v).error = s.error := rfl
@[simp] theorem State.setReg_outbuf (s : State) (r : RegIx) (v : Cell) : (s.setReg r v).outbuf = s.outbuf := rfl
@[simp] theorem State.setReg_inbuf (s : State) (r : RegIx) (v : Cell) : (s.setReg r v).inbuf = s.inbuf := rfl
@[simp] theorem State.setReg_sink (s : State) (r : RegIx) (v : Cell) : (s.setReg r v).sink = s.sink := rfl
@[simp] theorem State.setReg_source (s : State) (r : RegIx) (v : Cell) : (s.setReg r v).source = s.source := rfl
@[simp] theorem State.setReg_params (s : State) (r : RegIx) (v : Cell) : (s.setReg r v).params = s.params := rfl

/-! ## setPc -/

@[simp] theorem State.setPc_mem (s : State) (t : Cell) : (s.setPc t).mem = s.mem := rfl
@[simp] theorem State.setPc_regs (s : State) (t : Cell) : (s.setPc t).regs = s.regs := rfl
@[simp] theorem State.setPc_stack (s : State) (t : Cell) : (s.setPc t).stack = s.stack := rfl
@[simp] theorem State.setPc_pc (s : State) (t : Cell) : (s.setPc t).pc = t := rfl
@[simp] theorem State.setPc_running (s : State) (t : Cell) : (s.setPc t).running = s.running := rfl
@[simp] theorem State.setPc_error (s : State) (t : Cell) : (s.setPc t).error = s.error := rfl
@[simp] theorem State.setPc_outbuf (s : State) (t : Cell) : (s.setPc t).outbuf = s.outbuf := rfl
@[simp] theorem State.setPc_inbuf (s : State) (t : Cell) : (s.setPc t).inbuf = s.inbuf := rfl
@[simp] theorem State.setPc_sink (s : State) (t : Cell) : (s.setPc t).sink = s.sink := rfl
@[simp] theorem State.setPc_source (s : State) (t : Cell) : (s.setPc t).source = s.source := rfl
@[simp] theorem State.setPc_params (s : State) (t : Cell) : (s.setPc t).params = s.params := rfl

/-! ## advance -/

@[simp] theorem State.advance_mem (s : State) (n : Nat) : (s.advance n).mem = s.mem := rfl
@[simp] theorem State.advance_regs (s : State) (n : Nat) : (s.advance n).regs = s.regs := rfl
@[simp] theorem State.advance_stack (s : State) (n : Nat) : (s.advance n).stack = s.stack := rfl
@[simp] theorem State.advance_pc (s : State) (n : Nat) : (s.advance n).pc = s.pc + BitVec.ofNat 16 n := rfl
@[simp] theorem State.advance_running (s : State) (n : Nat) : (s.advance n).running = s.running := rfl
@[simp] theorem State.advance_error (s : State) (n : Nat) : (s.advance n).error = s.error := rfl
@[simp] theorem State.advance_outbuf (s : State) (n : Nat) : (s.advance n).outbuf = s.outbuf := rfl
@[simp] theorem State.advance_inbuf (s : State) (n : Nat) : (s.advance n).inbuf = s.inbuf := rfl
@[simp] theorem State.advance_sink (s : State) (n : Nat) : (s.advance n).sink = s.sink := rfl
@[simp] theorem State.advance_source (s : State) (n : Nat) : (s.advance n).source = s.source := rfl
@[simp] theorem State.advance_params (s : State) (n : Nat) : (s.advance n).params = s.params := rfl

/-! ## push -/

@[simp] theorem State.push_mem (s : State) (v : Cell) : (s.push v).mem = s.mem := rfl
@[simp] theorem State.push_regs (s : State) (v : Cell) : (s.push v).regs = s.regs := rfl
@[simp] theorem State.push_stack (s : State) (v : Cell) : (s.push v).stack = s.stack ++ [v] := rfl
@[simp] theorem State.push_pc (s : State) (v : Cell) : (s.push v).pc = s.pc := rfl
@[simp] theorem State.push_running (s : State) (v : Cell) : (s.push v).running = s.running := rfl
@[simp] theorem State.push_error (s : State) (v : Cell) : (s.push v).error = s.error := rfl
@[simp] theorem State.push_outbuf (s : State) (v : Cell) : (s.push v).outbuf = s.outbuf := rfl
@[simp] theorem State.push_inbuf (s : State) (v : Cell) : (s.push v).inbuf = s.inbuf := rfl
@[simp] theorem State.push_sink (s : State) (v : Cell) : (s.push v).sink = s.sink := rfl
@[simp] theorem State.push_source (s : State) (v : Cell) : (s.push v).source = s.source := rfl
@[simp] theorem State.push_params (s : State) (v : Cell) : (s.push v).params = s.params := rfl

/-! ## dropTop -/

@[simp] theorem State.dropTop_mem (s : State) : (s.dropTop).mem = s.mem := rfl
@[simp] theorem State.dropTop_regs (s : State) : (s.dropTop).regs = s.regs := rfl
@[simp] theorem State.dropTop_stack (s : State) : (s.dropTop).stack = s.stack.dropLast := rfl
@[simp] theorem State.dropTop_pc (s : State) : (s.dropTop).pc = s.pc := rfl
@[simp] theorem State.dropTop_running (s : State) : (s.dropTop).running = s.running := rfl
@[simp] theorem State.dropTop_error (s : State) : (s.dropTop).error = s.error := rfl
@[simp] theorem State.dropTop_outbuf (s : State) : (s.dropTop).outbuf = s.outbuf := rfl
@[simp] theorem State.dropTop_inbuf (s : State) : (s.dropTop).inbuf = s.inbuf := rfl
@[simp] theorem State.dropTop_sink (s : State) : (s.dropTop).sink = s.sink := rfl
@[simp] theorem State.dropTop_source (s : State) : (s.dropTop).source = s.source := rfl
@[simp] theorem State.dropTop_params (s : State) : (s.dropTop).params = s.params := rfl

/-! ## halt -/

@[simp] theorem State.halt_mem (s : State) : (s.halt).mem = s.mem := rfl
@[simp] theorem State.halt_regs (s : State) : (s.halt).regs = s.regs := rfl
@[simp] theorem State.halt_stack (s : State) : (s.halt).stack = s.stack := rfl
@[simp] theorem State.halt_pc (s : State) : (s.halt).pc = s.pc := rfl
@[simp] theorem State.halt_running (s : State) : (s.halt).running = false := rfl
@[simp] theorem State.halt_error (s : State) : (s.halt).error = s.error := rfl
@[simp] theorem State.halt_outbuf (s : State) : (s.halt).outbuf = s.outbuf := rfl
@[simp] theorem State.halt_inbuf (s : State) : (s.halt).inbuf = s.inbuf := rfl
@[simp] theorem State.halt_sink (s : State) : (s.halt).sink = s.sink := rfl
@[simp] theorem State.halt_source (s : State) : (s.halt).source = s.source := rfl
@[simp] theorem State.halt_params (s : State) : (s.halt).params = s.params := rfl

/-! ## raise -/

@[simp] theorem State.raise_mem (s : State) (e : Cause) : (s.raise e).mem = s.mem := rfl
@[simp] theorem State.raise_regs (s : State) (e : Cause) : (s.raise e).regs = s.regs := rfl
@[simp] theorem State.raise_stack (s : State) (e : Cause) : (s.raise e).stack = s.stack := rfl
@[simp] theorem State.raise_pc (s : State) (e : Cause) : (s.raise e).pc = s.pc := rfl
@[simp] theorem State.raise_running (s : State) (e : Cause) : (s.raise e).running = false := rfl
@[simp] theorem State.raise_error (s : State) (e : Cause) : (s.raise e).error = some e := rfl
@[simp] theorem State.raise_outbuf (s : State) (e : Cause) : (s.raise e).outbuf = s.outbuf := rfl
@[simp] theorem State.raise_inbuf (s : State) (e : Cause) : (s.raise e).inbuf = s.inbuf := rfl
@[simp] theorem State.raise_sink (s : State) (e : Cause) : (s.raise e).sink = s.sink := rfl
@[simp] theorem State.raise_source (s : State) (e : Cause) : (s.raise e).source = s.source := rfl
@[simp] theorem State.raise_params (s : State) (e : Cause) : (s.raise e).params = s.params := rfl

/-! ## emit -/

@[simp] theorem State.emit_mem (s : State) (c : Cell) : (s.emit c).mem = s.mem := by unfold State.emit; split <;> rfl
@[simp] theorem State.emit_regs (s : State) (c : Cell) : (s.emit c).regs = s.regs := by unfold State.emit; split <;> rfl
@[simp] theorem State.emit_stack (s : State) (c : Cell) : (s.emit c).stack = s.stack := by unfold State.emit; split <;> rfl
@[simp] theorem State.emit_pc (s : State) (c : Cell) : (s.emit c).pc = s.pc := by unfold State.emit; split <;> rfl
@[simp] theorem State.emit_running (s : State) (c : Cell) : (s.emit c).running = s.running := by unfold State.emit; split <;> rfl
@[simp] theorem State.emit_error (s : State) (c : Cell) : (s.emit c).error = s.error := by unfold State.emit; split <;> rfl
@[simp] theorem State.emit_inbuf (s : State) (c : Cell) : (s.emit c).inbuf = s.inbuf := by unfold State.emit; split <;> rfl
@[simp] theorem State.emit_source (s : State) (c : Cell) : (s.emit c).source = s.source := by unfold State.emit; split <;> rfl
@[simp] theorem State.emit_params (s : State) (c : Cell) : (s.emit c).params = s.params := by unfold State.emit; split <;> rfl

theorem State.emit_char (s : State) (c : Cell) (h : c ≠ Config.newline) : s.emit c = { s with outbuf := s.outbuf ++ [c] } :=
  if_neg h

theorem State.emit_newline (s : State) : s.emit Config.newline = { s with sink := s.sink ++ [s.outbuf], outbuf := [] } := rfl

/-! ## Register reads -/

@[simp] theorem State.getReg_setReg_same (s : State) (r : RegIx) (v : Cell) : (s.setReg r v).getReg r = v := by
  simp [State.getReg, State.setReg]

theorem State.getReg_setReg_other (s : State) (r q : RegIx) (v : Cell) (h : q ≠ r) : (s.setReg r v).getReg q = s.getReg q := by
  have h' : (r : Nat) ≠ q := fun e => h (Fin.ext e.symm)
  simp [State.getReg, State.setReg, h']

end Sys2Proof.Machine
end

