-- ==== Sys2Proof/Laws/Operands.lean ====
section
/-! SUPPORT. What each shared operation over operands can do, said once. -/

namespace Sys2Proof.Machine

/-- A fault is a next state: the one after fault entry. -/
theorem fault_eq (e : Cause) (s : State) : fault e s = .next (s.raise e) := rfl

@[simp] theorem fault_next {e : Cause} {s s' : State} : fault e s = .next s' ↔ s' = s.raise e := by
  simp [fault, eq_comm]

/-- A value operand has one fault of its own. -/
theorem resolveValue_error {t : Token} {s : State} {e : Cause} (h : resolveValue s t = .error e) : e = .invalidOperand := by
  cases t <;> simp_all [resolveValue]

/-- A destination operand has one fault of its own. -/
theorem resolveTarget_error {t : Token} {e : Cause} (h : resolveTarget t = .error e) : e = .invalidRegisterOperand := by
  cases t <;> simp_all [resolveTarget]

theorem withValue_ok {t : Token} {s : State} {v : Cell} (h : resolveValue s t = .ok v) (k : Cell → Result) :
    withValue t s k = k v := by
  simp [withValue, h]

theorem withValue_error {t : Token} {s : State} {e : Cause} (h : resolveValue s t = .error e) (k : Cell → Result) :
    withValue t s k = fault e s := by
  simp [withValue, h]

theorem withTarget_ok {t : Token} {r : RegIx} (s : State) (h : resolveTarget t = .ok r) (k : RegIx → Result) :
    withTarget t s k = k r := by
  simp [withTarget, h]

theorem withTarget_error {t : Token} {e : Cause} (s : State) (h : resolveTarget t = .error e) (k : RegIx → Result) :
    withTarget t s k = fault e s := by
  simp [withTarget, h]

/-- A value operand resolves or the step is the operand's fault. -/
theorem withValue_cases (t : Token) (s : State) (k : Cell → Result) :
    (∃ v, resolveValue s t = .ok v ∧ withValue t s k = k v) ∨
      (∃ e, resolveValue s t = .error e ∧ withValue t s k = .next (s.raise e)) := by
  cases h : resolveValue s t with
  | ok v => exact .inl ⟨v, rfl, withValue_ok h k⟩
  | error e => exact .inr ⟨e, rfl, withValue_error h k⟩

/-- A destination operand is a register reference or the step is the operand's fault. -/
theorem withTarget_cases (t : Token) (s : State) (k : RegIx → Result) :
    (∃ r, t = .register r ∧ withTarget t s k = k r) ∨
      (∃ e, resolveTarget t = .error e ∧ withTarget t s k = .next (s.raise e)) := by
  cases t with
  | register r => exact .inl ⟨r, rfl, rfl⟩
  | literal v => exact .inr ⟨.invalidRegisterOperand, rfl, rfl⟩
  | invalid c => exact .inr ⟨.invalidRegisterOperand, rfl, rfl⟩

/-- Everything an instruction of the shape f(b, c) into a can do. -/
theorem writeOp3_next {a b c : Token} {s s' : State} {f : Cell → Cell → Cell} (h : writeOp3 a b c s f = .next s') :
    (∃ e, s' = s.raise e) ∨
      ∃ r x y, a = .register r ∧ resolveValue s b = .ok x ∧ resolveValue s c = .ok y ∧ s' = (s.setReg r (f x y)).advance 4 := by
  unfold writeOp3 at h
  obtain ⟨r, ha, hk⟩ | ⟨e, -, hk⟩ := withTarget_cases a s _ <;> rw [hk] at h
  · obtain ⟨x, hb, hk⟩ | ⟨e, -, hk⟩ := withValue_cases b s _ <;> rw [hk] at h
    · obtain ⟨y, hc, hk⟩ | ⟨e, -, hk⟩ := withValue_cases c s _ <;> rw [hk] at h
      · exact .inr ⟨r, x, y, ha, hb, hc, by simpa using h.symm⟩
      · exact .inl ⟨e, by simpa using h.symm⟩
    · exact .inl ⟨e, by simpa using h.symm⟩
  · exact .inl ⟨e, by simpa using h.symm⟩

/-- Everything an instruction of the shape f(b) into a can do. -/
theorem writeOp2_next {a b : Token} {s s' : State} {f : Cell → Cell} (h : writeOp2 a b s f = .next s') :
    (∃ e, s' = s.raise e) ∨
      ∃ r x, a = .register r ∧ resolveValue s b = .ok x ∧ s' = (s.setReg r (f x)).advance 3 := by
  unfold writeOp2 at h
  obtain ⟨r, ha, hk⟩ | ⟨e, -, hk⟩ := withTarget_cases a s _ <;> rw [hk] at h
  · obtain ⟨x, hb, hk⟩ | ⟨e, -, hk⟩ := withValue_cases b s _ <;> rw [hk] at h
    · exact .inr ⟨r, x, ha, hb, by simpa using h.symm⟩
    · exact .inl ⟨e, by simpa using h.symm⟩
  · exact .inl ⟨e, by simpa using h.symm⟩

/-- Everything asking for the next character can do: take one from the pending line, or from the source's next line, or
wait, or find the line too long. -/
theorem State.nextInputChar_char {s s' : State} {c : Cell} (h : s.nextInputChar = .char c s') :
    (∃ rest, s.inbuf = c :: rest ∧ s' = { s with inbuf := rest }) ∨
      ∃ rest later, s.inbuf = [] ∧ s.source = (c :: rest) :: later ∧ fits s.params.inbufDepth (rest.length + 1) = true ∧
        s' = { s with inbuf := rest, source := later } := by
  unfold State.nextInputChar at h
  split at h
  · next d rest hin =>
    cases h
    exact .inl ⟨rest, hin, rfl⟩
  · next hin =>
    split at h
    · cases h
    · cases h
    · next d rest later hs =>
      split at h
      · next hf =>
        cases h
        exact .inr ⟨rest, later, hin, hs, hf, rfl⟩
      · cases h

end Sys2Proof.Machine
end

