-- ==== Sys2Proof/Laws/Exec.lean ====
section
/-! SUPPORT. What each instruction, a fetch and a step can do, said once: if it answers a next state, then one of these
cases holds. -/

namespace Sys2Proof.Machine

variable {s s' : State} {a b c : Token}

theorem exec_halt_next (h : exec .halt s = .next s') : s' = s.halt.advance 1 := by
  simpa [exec, execHalt, eq_comm] using h

theorem exec_noop_next (h : exec .noop s = .next s') : s' = s.advance 1 := by
  simpa [exec, execNoop, eq_comm] using h

theorem exec_set_next (h : exec (.set a b) s = .next s') :
    (∃ e, s' = s.raise e) ∨ ∃ r x, a = .register r ∧ resolveValue s b = .ok x ∧ s' = (s.setReg r x).advance 3 :=
  writeOp2_next h

theorem exec_push_next (h : exec (.push a) s = .next s') :
    (∃ e, s' = s.raise e) ∨ ∃ x, resolveValue s a = .ok x ∧ s.stackRoom = true ∧ s' = (s.push x).advance 2 := by
  simp only [exec, execPush] at h
  obtain ⟨x, hx, hk⟩ | ⟨e, -, hk⟩ := withValue_cases a s _ <;> rw [hk] at h
  · split at h
    · next hr => exact .inr ⟨x, hx, hr, by simpa using h.symm⟩
    · exact .inl ⟨_, fault_next.1 h⟩
  · exact .inl ⟨e, by simpa using h.symm⟩

theorem exec_pop_next (h : exec (.pop a) s = .next s') :
    (∃ e, s' = s.raise e) ∨
      ∃ r v, a = .register r ∧ s.stack.getLast? = some v ∧ s' = (s.dropTop.setReg r v).advance 2 := by
  simp only [exec, execPop] at h
  obtain ⟨r, ha, hk⟩ | ⟨e, -, hk⟩ := withTarget_cases a s _ <;> rw [hk] at h
  · split at h
    · next v hv => exact .inr ⟨r, v, ha, hv, by simpa using h.symm⟩
    · exact .inl ⟨_, fault_next.1 h⟩
  · exact .inl ⟨e, by simpa using h.symm⟩

theorem exec_eq_next (h : exec (.eq a b c) s = .next s') :
    (∃ e, s' = s.raise e) ∨ ∃ r x y, a = .register r ∧ resolveValue s b = .ok x ∧ resolveValue s c = .ok y ∧
      s' = (s.setReg r (flagCell (decide (x = y)))).advance 4 :=
  writeOp3_next h

theorem exec_gt_next (h : exec (.gt a b c) s = .next s') :
    (∃ e, s' = s.raise e) ∨ ∃ r x y, a = .register r ∧ resolveValue s b = .ok x ∧ resolveValue s c = .ok y ∧
      s' = (s.setReg r (flagCell (decide (y.toNat < x.toNat)))).advance 4 :=
  writeOp3_next h

theorem exec_jmp_next (h : exec (.jmp a) s = .next s') :
    (∃ e, s' = s.raise e) ∨ ∃ x, resolveValue s a = .ok x ∧ s' = s.setPc x := by
  simp only [exec, execJmp] at h
  obtain ⟨x, hx, hk⟩ | ⟨e, -, hk⟩ := withValue_cases a s _ <;> rw [hk] at h
  · exact .inr ⟨x, hx, by simpa using h.symm⟩
  · exact .inl ⟨e, by simpa using h.symm⟩

theorem exec_jt_next (h : exec (.jt a b) s = .next s') :
    (∃ e, s' = s.raise e) ∨ ∃ x y, resolveValue s a = .ok x ∧ resolveValue s b = .ok y ∧
      ((x ≠ 0#16 ∧ s' = s.setPc y) ∨ (x = 0#16 ∧ s' = s.advance 3)) := by
  simp only [exec, execJt] at h
  obtain ⟨x, hx, hk⟩ | ⟨e, -, hk⟩ := withValue_cases a s _ <;> rw [hk] at h
  · obtain ⟨y, hy, hk⟩ | ⟨e, -, hk⟩ := withValue_cases b s _ <;> rw [hk] at h
    · refine .inr ⟨x, y, hx, hy, ?_⟩
      by_cases hz : x = 0#16
      · exact .inr ⟨hz, by simpa [isNonzero, hz] using h.symm⟩
      · exact .inl ⟨hz, by simpa [isNonzero, hz] using h.symm⟩
    · exact .inl ⟨e, by simpa using h.symm⟩
  · exact .inl ⟨e, by simpa using h.symm⟩

theorem exec_jf_next (h : exec (.jf a b) s = .next s') :
    (∃ e, s' = s.raise e) ∨ ∃ x y, resolveValue s a = .ok x ∧ resolveValue s b = .ok y ∧
      ((x = 0#16 ∧ s' = s.setPc y) ∨ (x ≠ 0#16 ∧ s' = s.advance 3)) := by
  simp only [exec, execJf] at h
  obtain ⟨x, hx, hk⟩ | ⟨e, -, hk⟩ := withValue_cases a s _ <;> rw [hk] at h
  · obtain ⟨y, hy, hk⟩ | ⟨e, -, hk⟩ := withValue_cases b s _ <;> rw [hk] at h
    · refine .inr ⟨x, y, hx, hy, ?_⟩
      by_cases hz : x = 0#16
      · exact .inl ⟨hz, by simpa [isNonzero, hz] using h.symm⟩
      · exact .inr ⟨hz, by simpa [isNonzero, hz] using h.symm⟩
    · exact .inl ⟨e, by simpa using h.symm⟩
  · exact .inl ⟨e, by simpa using h.symm⟩

theorem exec_add_next (h : exec (.add a b c) s = .next s') :
    (∃ e, s' = s.raise e) ∨ ∃ r x y, a = .register r ∧ resolveValue s b = .ok x ∧ resolveValue s c = .ok y ∧
      s' = (s.setReg r (addCells x y)).advance 4 :=
  writeOp3_next h

theorem exec_mult_next (h : exec (.mult a b c) s = .next s') :
    (∃ e, s' = s.raise e) ∨ ∃ r x y, a = .register r ∧ resolveValue s b = .ok x ∧ resolveValue s c = .ok y ∧
      s' = (s.setReg r (multCells x y)).advance 4 :=
  writeOp3_next h

theorem exec_mod_next (h : exec (.mod a b c) s = .next s') :
    (∃ e, s' = s.raise e) ∨ ∃ r x y, a = .register r ∧ resolveValue s b = .ok x ∧ resolveValue s c = .ok y ∧ y ≠ 0#16 ∧
      s' = (s.setReg r (modCells x y)).advance 4 := by
  simp only [exec, execMod] at h
  obtain ⟨r, ha, hk⟩ | ⟨e, -, hk⟩ := withTarget_cases a s _ <;> rw [hk] at h
  · obtain ⟨x, hb, hk⟩ | ⟨e, -, hk⟩ := withValue_cases b s _ <;> rw [hk] at h
    · obtain ⟨y, hc, hk⟩ | ⟨e, -, hk⟩ := withValue_cases c s _ <;> rw [hk] at h
      · split at h
        · exact .inl ⟨_, fault_next.1 h⟩
        · next hy => exact .inr ⟨r, x, y, ha, hb, hc, hy, by simpa using h.symm⟩
      · exact .inl ⟨e, by simpa using h.symm⟩
    · exact .inl ⟨e, by simpa using h.symm⟩
  · exact .inl ⟨e, by simpa using h.symm⟩

theorem exec_and_next (h : exec (.and a b c) s = .next s') :
    (∃ e, s' = s.raise e) ∨ ∃ r x y, a = .register r ∧ resolveValue s b = .ok x ∧ resolveValue s c = .ok y ∧
      s' = (s.setReg r (x &&& y)).advance 4 :=
  writeOp3_next h

theorem exec_or_next (h : exec (.or a b c) s = .next s') :
    (∃ e, s' = s.raise e) ∨ ∃ r x y, a = .register r ∧ resolveValue s b = .ok x ∧ resolveValue s c = .ok y ∧
      s' = (s.setReg r (x ||| y)).advance 4 :=
  writeOp3_next h

theorem exec_not_next (h : exec (.not a b) s = .next s') :
    (∃ e, s' = s.raise e) ∨ ∃ r x, a = .register r ∧ resolveValue s b = .ok x ∧ s' = (s.setReg r (notCell x)).advance 3 :=
  writeOp2_next h

theorem exec_rmem_next (h : exec (.rmem a b) s = .next s') :
    (∃ e, s' = s.raise e) ∨ ∃ r x, a = .register r ∧ resolveValue s b = .ok x ∧ x.toNat < 32768 ∧
      s' = (s.setReg r (s.mem.read x.toNat)).advance 3 := by
  simp only [exec, execRmem, State.memRead] at h
  obtain ⟨r, ha, hk⟩ | ⟨e, -, hk⟩ := withTarget_cases a s _ <;> rw [hk] at h
  · obtain ⟨x, hb, hk⟩ | ⟨e, -, hk⟩ := withValue_cases b s _ <;> rw [hk] at h
    · by_cases hx : x.toNat < Config.memWords
      · simp only [hx, if_true] at h
        exact .inr ⟨r, x, ha, hb, hx, by simpa using h.symm⟩
      · simp only [hx, if_false] at h
        exact .inl ⟨_, fault_next.1 h⟩
    · exact .inl ⟨e, by simpa using h.symm⟩
  · exact .inl ⟨e, by simpa using h.symm⟩

theorem exec_wmem_next (h : exec (.wmem a b) s = .next s') :
    (∃ e, s' = s.raise e) ∨ ∃ x y, resolveValue s a = .ok x ∧ resolveValue s b = .ok y ∧ x.toNat < 32768 ∧
      s' = State.advance { s with mem := s.mem.write x.toNat y } 3 := by
  simp only [exec, execWmem, State.memWrite] at h
  obtain ⟨x, ha, hk⟩ | ⟨e, -, hk⟩ := withValue_cases a s _ <;> rw [hk] at h
  · obtain ⟨y, hb, hk⟩ | ⟨e, -, hk⟩ := withValue_cases b s _ <;> rw [hk] at h
    · by_cases hx : x.toNat < Config.memWords
      · simp only [hx, if_true] at h
        exact .inr ⟨x, y, ha, hb, hx, by simpa using h.symm⟩
      · simp only [hx, if_false] at h
        exact .inl ⟨_, fault_next.1 h⟩
    · exact .inl ⟨e, by simpa using h.symm⟩
  · exact .inl ⟨e, by simpa using h.symm⟩

theorem exec_call_next (h : exec (.call a) s = .next s') :
    (∃ e, s' = s.raise e) ∨ ∃ x, resolveValue s a = .ok x ∧ s.stackRoom = true ∧ s' = (s.push (s.pc + 2#16)).setPc x := by
  simp only [exec, execCall] at h
  obtain ⟨x, hx, hk⟩ | ⟨e, -, hk⟩ := withValue_cases a s _ <;> rw [hk] at h
  · split at h
    · next hr => exact .inr ⟨x, hx, hr, by simpa using h.symm⟩
    · exact .inl ⟨_, fault_next.1 h⟩
  · exact .inl ⟨e, by simpa using h.symm⟩

theorem exec_ret_next (h : exec .ret s = .next s') :
    (∃ v, s.stack.getLast? = some v ∧ s' = s.dropTop.setPc v) ∨ (s.stack = [] ∧ s' = s.halt) := by
  simp only [exec, execRet] at h
  split at h
  · next v hv => exact .inl ⟨v, hv, (Host.Outcome.next.inj h).symm⟩
  · next hv => exact .inr ⟨List.getLast?_eq_none_iff.1 hv, (Host.Outcome.next.inj h).symm⟩

theorem exec_out_next (h : exec (.out a) s = .next s') :
    (∃ e, s' = s.raise e) ∨ ∃ x, resolveValue s a = .ok x ∧ s.outbufRoom x = true ∧ s' = (s.emit x).advance 2 := by
  simp only [exec, execOut] at h
  obtain ⟨x, hx, hk⟩ | ⟨e, -, hk⟩ := withValue_cases a s _ <;> rw [hk] at h
  · split at h
    · next hr => exact .inr ⟨x, hx, hr, by simpa using h.symm⟩
    · cases h
  · exact .inl ⟨e, by simpa using h.symm⟩

theorem exec_inp_next (h : exec (.inp a) s = .next s') :
    (∃ e, s' = s.raise e) ∨
      ∃ r, a = .register r ∧ ((s.nextInputChar = .wait ∧ s' = s) ∨
        ∃ v t, s.nextInputChar = .char v t ∧ s' = (t.setReg r v).advance 2) := by
  simp only [exec, execInp] at h
  obtain ⟨r, ha, hk⟩ | ⟨e, -, hk⟩ := withTarget_cases a s _ <;> rw [hk] at h
  · refine .inr ⟨r, ha, ?_⟩
    split at h
    · next v t ht => exact .inr ⟨v, t, ht, (Host.Outcome.next.inj h).symm⟩
    · next hw => exact .inl ⟨hw, (Host.Outcome.next.inj h).symm⟩
    · cases h
  · exact .inl ⟨e, by simpa using h.symm⟩

/-! ## Fetch and step -/

/-- A fetched instruction is the one decoded from the cells at the pc, and its opcode is implemented. -/
theorem State.fetch_ok {i : Instr} (h : s.fetch = .ok i) :
    ∃ rest, decode s.fetchCells = .ok (i, rest) ∧ s.implements i.opcode = true := by
  unfold State.fetch at h
  split at h
  · next j rest hd =>
    split at h
    · next hi =>
      cases h
      exact ⟨rest, hd, hi⟩
    · cases h
  · cases h
  · cases h
  · split at h <;> cases h

/-- The cells an instruction is fetched from, read through `memRead`. -/
theorem State.fetchCells_of_le {k : Nat} (hk : k < 4) (h : s.pc.toNat + k < 32768) :
    s.fetchCells[k]? = some (s.mem.read (s.pc.toNat + k)) := by
  have hm : ∀ j, j ≤ k → s.memRead (s.pc.toNat + j) = some (s.mem.read (s.pc.toNat + j)) := fun j hj =>
    if_pos (show s.pc.toNat + j < 32768 by omega)
  interval_cases k
  · simp [State.fetchCells, State.fetchAddrs, show s.memRead s.pc.toNat = some (s.mem.read s.pc.toNat) from hm 0 (le_refl 0)]
  · simp [State.fetchCells, State.fetchAddrs, show s.memRead s.pc.toNat = some (s.mem.read s.pc.toNat) from hm 0 (by omega),
      hm 1 (by omega)]
  · simp [State.fetchCells, State.fetchAddrs, show s.memRead s.pc.toNat = some (s.mem.read s.pc.toNat) from hm 0 (by omega),
      hm 1 (by omega), hm 2 (by omega)]
  · simp [State.fetchCells, State.fetchAddrs, show s.memRead s.pc.toNat = some (s.mem.read s.pc.toNat) from hm 0 (by omega),
      hm 1 (by omega), hm 2 (by omega), hm 3 (by omega)]

/-- Everything a step that answers a next state can do. -/
theorem step_next (h : step s = .next s') :
    s.running = true ∧
      ((∃ i, s.fetch = .ok i ∧ exec i s = .next s') ∨ ∃ e, s.fetch = .error e ∧ s' = s.raise e) := by
  unfold step at h
  split at h
  · next hr =>
    refine ⟨hr, ?_⟩
    split at h
    · next i hf => exact .inl ⟨i, hf, h⟩
    · next e hf => exact .inr ⟨e, hf, fault_next.1 h⟩
  · cases h

end Sys2Proof.Machine
end

