-- ==== Sys2Proof/Laws/Effect.lean ====
section
/-! SUPPORT. What executing any instruction can do, said once for all 22: if `exec` answers a next state, that state is one of
the `Effect`s. Whole-machine claims are proved by cases on it. -/

namespace Sys2Proof.Machine

/-- The ten instructions that only write a register: which one writes which value. -/
inductive Writes (s : State) : Instr → RegIx → Cell → Prop
  | set (r b x) : resolveValue s b = .ok x → Writes s (.set (.register r) b) r x
  | eq (r b c x y) : resolveValue s b = .ok x → resolveValue s c = .ok y →
      Writes s (.eq (.register r) b c) r (flagCell (decide (x = y)))
  | gt (r b c x y) : resolveValue s b = .ok x → resolveValue s c = .ok y →
      Writes s (.gt (.register r) b c) r (flagCell (decide (y.toNat < x.toNat)))
  | add (r b c x y) : resolveValue s b = .ok x → resolveValue s c = .ok y → Writes s (.add (.register r) b c) r (addCells x y)
  | mult (r b c x y) : resolveValue s b = .ok x → resolveValue s c = .ok y →
      Writes s (.mult (.register r) b c) r (multCells x y)
  | mod (r b c x y) : resolveValue s b = .ok x → resolveValue s c = .ok y → y ≠ 0#16 →
      Writes s (.mod (.register r) b c) r (modCells x y)
  | and (r b c x y) : resolveValue s b = .ok x → resolveValue s c = .ok y → Writes s (.and (.register r) b c) r (x &&& y)
  | or (r b c x y) : resolveValue s b = .ok x → resolveValue s c = .ok y → Writes s (.or (.register r) b c) r (x ||| y)
  | not (r b x) : resolveValue s b = .ok x → Writes s (.not (.register r) b) r (notCell x)
  | rmem (r b x) : resolveValue s b = .ok x → x.toNat < 32768 → Writes s (.rmem (.register r) b) r (s.mem.read x.toNat)

/-- The next states an instruction can answer. -/
inductive Effect (s : State) : Instr → State → Prop
  | raise (i e) : Effect s i (s.raise e)
  | halt : Effect s .halt (s.halt.advance 1)
  | noop : Effect s .noop (s.advance 1)
  | write (i r v) : Writes s i r v → Effect s i ((s.setReg r v).advance i.opcode.length)
  | push (a x) : resolveValue s a = .ok x → s.stackRoom = true → Effect s (.push a) ((s.push x).advance 2)
  | pop (r v) : s.stack.getLast? = some v → Effect s (.pop (.register r)) ((s.dropTop.setReg r v).advance 2)
  | jmp (a x) : resolveValue s a = .ok x → Effect s (.jmp a) (s.setPc x)
  | jtTaken (a b x y) : resolveValue s a = .ok x → resolveValue s b = .ok y → x ≠ 0#16 → Effect s (.jt a b) (s.setPc y)
  | jtNot (a b y) : resolveValue s a = .ok 0#16 → resolveValue s b = .ok y → Effect s (.jt a b) (s.advance 3)
  | jfTaken (a b y) : resolveValue s a = .ok 0#16 → resolveValue s b = .ok y → Effect s (.jf a b) (s.setPc y)
  | jfNot (a b x y) : resolveValue s a = .ok x → resolveValue s b = .ok y → x ≠ 0#16 → Effect s (.jf a b) (s.advance 3)
  | call (a x) : resolveValue s a = .ok x → s.stackRoom = true → Effect s (.call a) ((s.push (s.pc + 2#16)).setPc x)
  | ret (v) : s.stack.getLast? = some v → Effect s .ret (s.dropTop.setPc v)
  | retHalt : s.stack = [] → Effect s .ret s.halt
  | store (a b x y) : resolveValue s a = .ok x → resolveValue s b = .ok y → x.toNat < 32768 →
      Effect s (.wmem a b) (State.advance { s with mem := s.mem.write x.toNat y } 3)
  | out (a x) : resolveValue s a = .ok x → s.outbufRoom x = true → Effect s (.out a) ((s.emit x).advance 2)
  | wait (r) : s.nextInputChar = .wait → Effect s (.inp (.register r)) s
  | inPending (r c rest) : s.inbuf = c :: rest →
      Effect s (.inp (.register r)) ((State.setReg { s with inbuf := rest } r c).advance 2)
  | inLine (r c rest later) : s.inbuf = [] → s.source = (c :: rest) :: later →
      fits s.params.inbufDepth (rest.length + 1) = true →
      Effect s (.inp (.register r)) ((State.setReg { s with inbuf := rest, source := later } r c).advance 2)

/-- Everything `exec` can do when it answers a next state. -/
theorem exec_effect {i : Instr} {s s' : State} (h : exec i s = .next s') : Effect s i s' := by
  cases i with
  | halt => exact exec_halt_next h ▸ .halt
  | noop => exact exec_noop_next h ▸ .noop
  | set a b =>
    obtain ⟨e, rfl⟩ | ⟨r, x, rfl, hb, rfl⟩ := exec_set_next h
    · exact .raise _ e
    · exact .write _ r _ (.set r b x hb)
  | push a =>
    obtain ⟨e, rfl⟩ | ⟨x, hx, hr, rfl⟩ := exec_push_next h
    · exact .raise _ e
    · exact .push a x hx hr
  | pop a =>
    obtain ⟨e, rfl⟩ | ⟨r, v, rfl, hv, rfl⟩ := exec_pop_next h
    · exact .raise _ e
    · exact .pop r v hv
  | eq a b c =>
    obtain ⟨e, rfl⟩ | ⟨r, x, y, rfl, hb, hc, rfl⟩ := exec_eq_next h
    · exact .raise _ e
    · exact .write _ r _ (.eq r b c x y hb hc)
  | gt a b c =>
    obtain ⟨e, rfl⟩ | ⟨r, x, y, rfl, hb, hc, rfl⟩ := exec_gt_next h
    · exact .raise _ e
    · exact .write _ r _ (.gt r b c x y hb hc)
  | jmp a =>
    obtain ⟨e, rfl⟩ | ⟨x, hx, rfl⟩ := exec_jmp_next h
    · exact .raise _ e
    · exact .jmp a x hx
  | jt a b =>
    obtain ⟨e, rfl⟩ | ⟨x, y, hx, hy, ⟨hz, rfl⟩ | ⟨rfl, rfl⟩⟩ := exec_jt_next h
    · exact .raise _ e
    · exact .jtTaken a b x y hx hy hz
    · exact .jtNot a b y hx hy
  | jf a b =>
    obtain ⟨e, rfl⟩ | ⟨x, y, hx, hy, ⟨rfl, rfl⟩ | ⟨hz, rfl⟩⟩ := exec_jf_next h
    · exact .raise _ e
    · exact .jfTaken a b y hx hy
    · exact .jfNot a b x y hx hy hz
  | add a b c =>
    obtain ⟨e, rfl⟩ | ⟨r, x, y, rfl, hb, hc, rfl⟩ := exec_add_next h
    · exact .raise _ e
    · exact .write _ r _ (.add r b c x y hb hc)
  | mult a b c =>
    obtain ⟨e, rfl⟩ | ⟨r, x, y, rfl, hb, hc, rfl⟩ := exec_mult_next h
    · exact .raise _ e
    · exact .write _ r _ (.mult r b c x y hb hc)
  | mod a b c =>
    obtain ⟨e, rfl⟩ | ⟨r, x, y, rfl, hb, hc, hy, rfl⟩ := exec_mod_next h
    · exact .raise _ e
    · exact .write _ r _ (.mod r b c x y hb hc hy)
  | and a b c =>
    obtain ⟨e, rfl⟩ | ⟨r, x, y, rfl, hb, hc, rfl⟩ := exec_and_next h
    · exact .raise _ e
    · exact .write _ r _ (.and r b c x y hb hc)
  | or a b c =>
    obtain ⟨e, rfl⟩ | ⟨r, x, y, rfl, hb, hc, rfl⟩ := exec_or_next h
    · exact .raise _ e
    · exact .write _ r _ (.or r b c x y hb hc)
  | not a b =>
    obtain ⟨e, rfl⟩ | ⟨r, x, rfl, hb, rfl⟩ := exec_not_next h
    · exact .raise _ e
    · exact .write _ r _ (.not r b x hb)
  | rmem a b =>
    obtain ⟨e, rfl⟩ | ⟨r, x, rfl, hb, hx, rfl⟩ := exec_rmem_next h
    · exact .raise _ e
    · exact .write _ r _ (.rmem r b x hb hx)
  | wmem a b =>
    obtain ⟨e, rfl⟩ | ⟨x, y, ha, hb, hx, rfl⟩ := exec_wmem_next h
    · exact .raise _ e
    · exact .store a b x y ha hb hx
  | call a =>
    obtain ⟨e, rfl⟩ | ⟨x, hx, hr, rfl⟩ := exec_call_next h
    · exact .raise _ e
    · exact .call a x hx hr
  | ret =>
    obtain ⟨v, hv, rfl⟩ | ⟨hs, rfl⟩ := exec_ret_next h
    · exact .ret v hv
    · exact .retHalt hs
  | out a =>
    obtain ⟨e, rfl⟩ | ⟨x, hx, hr, rfl⟩ := exec_out_next h
    · exact .raise _ e
    · exact .out a x hx hr
  | inp a =>
    obtain ⟨e, rfl⟩ | ⟨r, rfl, ⟨hw, rfl⟩ | ⟨v, t, ht, rfl⟩⟩ := exec_inp_next h
    · exact .raise _ e
    · exact .wait r hw
    · obtain ⟨rest, h1, rfl⟩ | ⟨rest, later, h1, h2, h3, rfl⟩ := State.nextInputChar_char ht
      · exact .inPending r v rest h1
      · exact .inLine r v rest later h1 h2 h3

end Sys2Proof.Machine
end

