-- ==== Sys2Proof/Laws/Memory.lean ====
section
/-! SUPPORT. The laws of memory: a read after a write, and the canonical form kept by every operation. -/

namespace Sys2Proof.Machine

theorem Memory.wfFrom_cons {lo k : Nat} {v : Cell} {m : Memory} :
    Memory.wfFrom lo ((k, v) :: m) = true ↔ lo ≤ k ∧ k < 32768 ∧ v ≠ 0#16 ∧ Memory.wfFrom (k + 1) m = true := by
  simp only [Memory.wfFrom, Bool.and_eq_true, decide_eq_true_eq, and_assoc]

/-- A lower bound may be lowered. -/
theorem Memory.wfFrom_mono {lo lo' : Nat} {m : Memory} (h : lo' ≤ lo) (hm : Memory.wfFrom lo m = true) :
    Memory.wfFrom lo' m = true := by
  cases m with
  | nil => rfl
  | cons p m =>
    obtain ⟨k, v⟩ := p
    rw [Memory.wfFrom_cons] at hm ⊢
    exact ⟨h.trans hm.1, hm.2⟩

/-- Below the first listed address a canonical memory reads 0. -/
theorem Memory.read_below {lo a : Nat} {m : Memory} (hm : Memory.wfFrom lo m = true) (h : a < lo) : Memory.read m a = 0#16 := by
  induction m generalizing lo with
  | nil => rfl
  | cons p m ih =>
    obtain ⟨k, v⟩ := p
    rw [Memory.wfFrom_cons] at hm
    have hk : ¬ k = a := by omega
    simp [Memory.read, hk, ih hm.2.2.2 (by omega)]

/-- Reading back the cell just written. -/
theorem Memory.read_write_same {lo : Nat} {m : Memory} (hm : Memory.wfFrom lo m = true) (a : Nat) (v : Cell) :
    (m.write a v).read a = v := by
  induction m generalizing lo with
  | nil => by_cases hv : v = 0#16 <;> simp [Memory.write, Memory.read, hv]
  | cons p m ih =>
    obtain ⟨k, w⟩ := p
    rw [Memory.wfFrom_cons] at hm
    obtain ⟨-, -, -, hm⟩ := hm
    by_cases hak : a < k
    · have hne : ¬ k = a := by omega
      by_cases hv : v = 0#16
      · simp [Memory.write, hak, hv, Memory.read, hne, Memory.read_below hm (show a < k + 1 by omega)]
      · simp [Memory.write, hak, hv, Memory.read]
    · by_cases he : a = k
      · subst he
        by_cases hv : v = 0#16
        · simp [Memory.write, hv, Memory.read_below hm (Nat.lt_succ_self a)]
        · simp [Memory.write, hv, Memory.read]
      · have hne : ¬ k = a := fun h => he h.symm
        simp [Memory.write, hak, he, Memory.read, hne, ih hm]

/-- Every other cell is unchanged by a write. -/
theorem Memory.read_write_other (m : Memory) (a b : Nat) (v : Cell) (h : b ≠ a) : (m.write a v).read b = m.read b := by
  induction m with
  | nil => by_cases hv : v = 0#16 <;> simp [Memory.write, Memory.read, hv, h.symm]
  | cons p m ih =>
    obtain ⟨k, w⟩ := p
    by_cases hak : a < k
    · by_cases hv : v = 0#16 <;> simp [Memory.write, hak, hv, Memory.read, h.symm]
    · by_cases he : a = k
      · subst he
        by_cases hv : v = 0#16 <;> simp [Memory.write, hv, Memory.read, h.symm]
      · simp only [Memory.write, hak, he, if_false, Memory.read, ih]

/-- A write keeps the canonical form. -/
theorem Memory.wfFrom_write {lo : Nat} {m : Memory} (hm : Memory.wfFrom lo m = true) {a : Nat} (hlo : lo ≤ a) (ha : a < 32768)
    (v : Cell) : Memory.wfFrom lo (m.write a v) = true := by
  induction m generalizing lo with
  | nil =>
    by_cases hv : v = 0#16
    · simp [Memory.write, hv, Memory.wfFrom]
    · simp only [Memory.write, hv, if_false, Memory.wfFrom_cons]
      exact ⟨hlo, ha, hv, rfl⟩
  | cons p m ih =>
    obtain ⟨k, w⟩ := p
    have hm' := Memory.wfFrom_cons.1 hm
    by_cases hak : a < k
    · by_cases hv : v = 0#16
      · simpa [Memory.write, hak, hv] using hm
      · simp only [Memory.write, hak, hv, if_true, if_false, Memory.wfFrom_cons]
        exact ⟨hlo, ha, hv, by omega, hm'.2.1, hm'.2.2⟩
    · by_cases he : a = k
      · subst he
        by_cases hv : v = 0#16
        · simpa [Memory.write, hv] using Memory.wfFrom_mono (show lo ≤ a + 1 by omega) hm'.2.2.2
        · simp only [Memory.write, hv, lt_irrefl, if_true, if_false, Memory.wfFrom_cons]
          exact ⟨hlo, ha, hv, hm'.2.2.2⟩
      · simp only [Memory.write, hak, he, if_false, Memory.wfFrom_cons]
        exact ⟨hm'.1, hm'.2.1, hm'.2.2.1, ih hm'.2.2.2 (by omega)⟩

theorem Memory.wf_write {m : Memory} (hm : m.wf = true) {a : Nat} (ha : a < 32768) (v : Cell) : (m.write a v).wf = true :=
  Memory.wfFrom_write hm (Nat.zero_le a) ha v

/-- Storing cells keeps the canonical form. -/
theorem Memory.wf_storeCells {m : Memory} (hm : m.wf = true) (a : Nat) (cs : List Cell) : (m.storeCells a cs).wf = true := by
  induction cs generalizing m a with
  | nil => exact hm
  | cons c cs ih =>
    by_cases ha : a < Config.memWords
    · simpa [Memory.storeCells, ha] using ih (Memory.wf_write hm ha c) (a + 1)
    · simpa [Memory.storeCells, ha] using ih hm (a + 1)

/-- A loaded image is in canonical form. -/
theorem Memory.wfFrom_ofWords (a : Nat) (ws : List Cell) (h : a + ws.length ≤ 32768) :
    Memory.wfFrom a (Memory.ofWords a ws) = true := by
  induction ws generalizing a with
  | nil => rfl
  | cons w ws ih =>
    simp only [List.length_cons] at h
    by_cases hw : w = 0#16
    · simpa [Memory.ofWords, hw] using Memory.wfFrom_mono (Nat.le_succ a) (ih (a + 1) (by omega))
    · simp only [Memory.ofWords, hw, if_false, Memory.wfFrom_cons]
      exact ⟨le_refl a, by omega, hw, ih (a + 1) (by omega)⟩

/-- What a loaded image reads as: its words, and 0 beyond them. -/
theorem Memory.read_ofWords (a : Nat) (ws : List Cell) (h : a + ws.length ≤ 32768) (k : Nat) :
    (Memory.ofWords a ws).read (a + k) = ws.getD k 0#16 := by
  induction ws generalizing a k with
  | nil => rfl
  | cons w ws ih =>
    simp only [List.length_cons] at h
    have hwf := Memory.wfFrom_ofWords (a + 1) ws (by omega)
    cases k with
    | zero =>
      by_cases hw : w = 0#16
      · simp [Memory.ofWords, hw, Memory.read_below hwf (Nat.lt_succ_self a)]
      · simp [Memory.ofWords, hw, Memory.read]
    | succ k =>
      have hk := ih (a + 1) (by omega) k
      rw [show a + 1 + k = a + (k + 1) by omega] at hk
      by_cases hw : w = 0#16
      · simp [Memory.ofWords, hw, hk]
      · simp [Memory.ofWords, hw, Memory.read, hk]

end Sys2Proof.Machine
end

