-- ==== Sys2Proof/Laws/PerInstr.lean ====
section
/-! SUPPORT. Facts about every instruction as syntax, one lemma per constructor. -/

/-! ## EncodeShape: the encoding starts with the opcode's number, has the length the opcode map gives, and a well-formed
instruction's operand tokens are read back from its operand cells. -/

namespace Sys2Proof.Laws.EncodeShape

/-- What is said of an instruction. -/
def Statement (i : Instr) : Prop :=
  (encode i).head? = some (BitVec.ofNat 16 i.opcode.code) ∧ (encode i).length = i.opcode.length ∧
    (i.wf = true → (encode i).tail.map Token.ofCell = i.operands)

/-- Token lists are read back from their cells. -/
theorem ofCell_encode_map {ts : List Token} (h : ∀ t ∈ ts, t.wf = true) : (ts.map Token.encode).map Token.ofCell = ts := by
  induction ts with
  | nil => rfl
  | cons t ts ih =>
    simp only [List.map_cons, Token.ofCell_encode (h t (List.mem_cons_self ..)), ih fun u hu => h u (List.mem_cons_of_mem t hu)]

/-- The operand tokens of a well-formed instruction are well-formed. -/
theorem operands_wf {i : Instr} (h : i.wf = true) : ∀ t ∈ i.operands, t.wf = true := by
  cases i <;> simp_all [Instr.wf, Instr.operands]

/-- The statement, from the lemma about operands. -/
theorem of_operands (i : Instr) : Statement i :=
  ⟨rfl, encode_length i, fun hi => ofCell_encode_map (operands_wf hi)⟩

theorem halt : Statement .halt := of_operands _

theorem set (a b : Token) : Statement (.set a b) := of_operands _

theorem push (a : Token) : Statement (.push a) := of_operands _

theorem pop (a : Token) : Statement (.pop a) := of_operands _

theorem eq (a b c : Token) : Statement (.eq a b c) := of_operands _

theorem gt (a b c : Token) : Statement (.gt a b c) := of_operands _

theorem jmp (a : Token) : Statement (.jmp a) := of_operands _

theorem jt (a b : Token) : Statement (.jt a b) := of_operands _

theorem jf (a b : Token) : Statement (.jf a b) := of_operands _

theorem add (a b c : Token) : Statement (.add a b c) := of_operands _

theorem mult (a b c : Token) : Statement (.mult a b c) := of_operands _

theorem mod (a b c : Token) : Statement (.mod a b c) := of_operands _

theorem and (a b c : Token) : Statement (.and a b c) := of_operands _

theorem or (a b c : Token) : Statement (.or a b c) := of_operands _

theorem not (a b : Token) : Statement (.not a b) := of_operands _

theorem rmem (a b : Token) : Statement (.rmem a b) := of_operands _

theorem wmem (a b : Token) : Statement (.wmem a b) := of_operands _

theorem call (a : Token) : Statement (.call a) := of_operands _

theorem ret : Statement .ret := of_operands _

theorem out (a : Token) : Statement (.out a) := of_operands _

theorem inp (a : Token) : Statement (.inp a) := of_operands _

theorem noop : Statement .noop := of_operands _

end Sys2Proof.Laws.EncodeShape
end

