-- ==== Sys2Proof/Tests/Slice0.lean ====
section
/-! SUPPORT. Tests of the model: expected results are the spec's own vectors (`95_test_vectors.md`, ids in the comments) or
worked out by hand from its rules; and, for each obligation with hypotheses, a witness that meets them all together. -/

namespace Sys2Proof.Tests

open Sys2Proof.Machine

/-! ## Helpers -/

/-- The state after reset with another pc and cells from it on. -/
def startAt (pc : Nat) (cells : List Cell) : State :=
  { State.reset with pc := BitVec.ofNat 16 pc, mem := Memory.ofWords pc cells }

/-- The state after one step, none where there is none. -/
def after (s : State) : Option State :=
  match step s with
  | .next t => some t
  | .fault _ => none
  | .refused _ => none

/-- A register and the pc after one step. -/
def regPc (s : State) (r : RegIx) : Option (Cell × Cell) := (after s).map fun t => (t.getReg r, t.pc)

/-- The stack and the pc after one step. -/
def stackPc (s : State) : Option (List Cell × Cell) := (after s).map fun t => (t.stack, t.pc)

/-- The pc and the running flag after one step. -/
def pcRunning (s : State) : Option (Cell × Bool) := (after s).map fun t => (t.pc, t.running)

/-- The fault entry a step makes, if the state it leaves is exactly that of R182. -/
def faultOf (s : State) : Option Cause :=
  match after s with
  | some t => if t = { s with running := false, error := t.error } then t.error else none
  | none => none

/-- Whether a step answers a stop of the model. -/
def stopOf (s : State) : Option (Fault ⊕ Refusal) :=
  match step s with
  | .next _ => none
  | .fault f => some (.inl f)
  | .refused r => some (.inr r)

/-! ## WellFormed: an invalid token that is not in [32776, 65535] is refused in every position -/

theorem test_token_wf_smallest_invalid : (Token.invalid 32776#16).wf = true ∧ (Token.invalid 32775#16).wf = false := by decide

theorem test_wf_refuses_first_operand : (Instr.push (.invalid 32775#16)).wf = false ∧
    (Instr.pop (.invalid 0#16)).wf = false ∧ (Instr.jmp (.invalid 5#16)).wf = false ∧
    (Instr.call (.invalid 5#16)).wf = false ∧ (Instr.out (.invalid 5#16)).wf = false ∧
    (Instr.inp (.invalid 32768#16)).wf = false := by decide

theorem test_wf_refuses_either_of_two : (Instr.set (.invalid 1#16) (.literal 0)).wf = false ∧
    (Instr.set (.register 0) (.invalid 1#16)).wf = false ∧ (Instr.not (.register 0) (.invalid 1#16)).wf = false ∧
    (Instr.jt (.literal 0) (.invalid 1#16)).wf = false ∧ (Instr.jf (.invalid 1#16) (.literal 0)).wf = false ∧
    (Instr.rmem (.register 0) (.invalid 1#16)).wf = false ∧ (Instr.wmem (.invalid 1#16) (.literal 0)).wf = false := by decide

theorem test_wf_refuses_third_operand : (Instr.eq (.register 0) (.literal 0) (.invalid 1#16)).wf = false ∧
    (Instr.gt (.register 0) (.literal 0) (.invalid 1#16)).wf = false ∧
    (Instr.add (.register 0) (.literal 0) (.invalid 1#16)).wf = false ∧
    (Instr.mult (.register 0) (.literal 0) (.invalid 1#16)).wf = false ∧
    (Instr.mod (.register 0) (.literal 0) (.invalid 1#16)).wf = false ∧
    (Instr.and (.register 0) (.literal 0) (.invalid 1#16)).wf = false ∧
    (Instr.or (.register 0) (.literal 0) (.invalid 1#16)).wf = false := by decide

/-! ## Decode: every constructor, from the cells the spec writes out (R66, R70 and the vectors) -/

theorem test_decode_system : decode [0#16] = .ok (.halt, []) ∧ decode [21#16] = .ok (.noop, []) := by decide

theorem test_decode_move_stack : decode [1#16, 32775#16, 32771#16] = .ok (.set (.register 7) (.register 3), []) ∧
    decode [2#16, 32767#16] = .ok (.push (.literal 32767#15), []) ∧
    decode [3#16, 32769#16] = .ok (.pop (.register 1), []) := by decide

theorem test_decode_compare : decode [4#16, 32768#16, 32769#16, 7#16] = .ok (.eq (.register 0) (.register 1) (.literal 7#15), []) ∧
    decode [5#16, 32768#16, 10#16, 3#16] = .ok (.gt (.register 0) (.literal 10#15) (.literal 3#15), []) := by decide

theorem test_decode_control : decode [6#16, 32772#16] = .ok (.jmp (.register 4), []) ∧
    decode [7#16, 32768#16, 100#16] = .ok (.jt (.register 0) (.literal 100#15), []) ∧
    decode [8#16, 0#16, 200#16] = .ok (.jf (.literal 0#15) (.literal 200#15), []) ∧
    decode [17#16, 50#16] = .ok (.call (.literal 50#15), []) ∧ decode [18#16] = .ok (.ret, []) := by decide

theorem test_decode_arith : decode [9#16, 32768#16, 32769#16, 15#16] = .ok (.add (.register 0) (.register 1) (.literal 15#15), []) ∧
    decode [10#16, 32768#16, 181#16, 182#16] = .ok (.mult (.register 0) (.literal 181#15) (.literal 182#15), []) ∧
    decode [11#16, 32768#16, 5#16, 32769#16] = .ok (.mod (.register 0) (.literal 5#15) (.register 1), []) ∧
    decode [12#16, 32768#16, 32527#16, 4080#16] = .ok (.and (.register 0) (.literal 32527#15) (.literal 4080#15), []) ∧
    decode [13#16, 32768#16, 32769#16, 7#16] = .ok (.or (.register 0) (.register 1) (.literal 7#15), []) ∧
    decode [14#16, 32768#16, 21845#16] = .ok (.not (.register 0) (.literal 21845#15), []) := by decide

theorem test_decode_memory : decode [15#16, 32770#16, 1#16] = .ok (.rmem (.register 2) (.literal 1#15), []) ∧
    decode [16#16, 100#16, 32768#16] = .ok (.wmem (.literal 100#15) (.register 0), []) := by decide

theorem test_decode_io : decode [19#16, 65#16] = .ok (.out (.literal 65#15), []) ∧
    decode [20#16, 32768#16] = .ok (.inp (.register 0), []) := by decide

/-- Refusals by name: the first unknown opcode, a register token as opcode, missing cells, no cell (T-fd-3, T-fd-4, T-fd-7). -/
theorem test_decode_rejects : decode [22#16, 32776#16] = .error (.unknownOpcode 22#16) ∧
    decode [32768#16] = .error (.unknownOpcode 32768#16) ∧ decode [65535#16] = .error (.unknownOpcode 65535#16) ∧
    decode [9#16, 32768#16, 1#16] = .error (.truncated .add) ∧ decode [] = .error .noCell := by decide

/-- An invalid token is part of its instruction, and the cells after it are left (T-mov-5, R69). -/
theorem test_decode_invalid_token : decode [1#16, 32768#16, 32776#16, 9#16] =
    .ok (.set (.register 0) (.invalid 32776#16), [9#16]) := by decide

theorem test_encode_set : encode (.set (.register 0) (.literal 10#15)) = [1#16, 32768#16, 10#16] := by decide

/-- The table's numbering: the first cell is bits 15 to 0, the next bits 31 to 16. -/
theorem test_decodeTableWord : decodeTableWord 16 1 = some (.set (.literal 0) (.literal 0)) ∧
    decodeTableWord 48 0x000A80000001 = some (.set (.register 0) (.literal 10#15)) ∧ decodeTableWord 16 22 = none := by decide

/-- The very next step runs the word placed, as the first instruction after reset: a `noop`, then an `out` of 0. -/
theorem test_withFetchWord : pcRunning (State.reset.withFetchWord 16 21) = some (1#16, true) ∧
    (after (State.reset.withFetchWord 16 19)).map (·.outbuf) = some [0#16] := by decide

/-! ## One step of each instruction -/

/-- T-sys-1 and T-sys-3: `halt` adds 1 to pc. -/
theorem test_halt_step : pcRunning (startAt 5 [0]) = some (6#16, false) ∧ pcRunning (startAt 32767 [0]) = some (32768#16, false) := by
  decide

/-- T-sys-4: `noop` at the last address runs on to 32768. -/
theorem test_noop_step : pcRunning (startAt 32767 [21]) = some (32768#16, true) := by decide

/-- T-mov-2. -/
theorem test_set_step : regPc ((startAt 0 [1, 32775, 32771]).setReg 3 555) 7 = some (555#16, 3#16) := by decide

/-- T-mov-8: both operands bad, the destination reported. -/
theorem test_set_fault : faultOf (startAt 0 [1, 5, 40000]) = some .invalidRegisterOperand := by decide

/-- T-mov-9. -/
theorem test_push_step : stackPc ({ (startAt 0 [2, 32771]).setReg 3 77 with stack := [1] }) = some ([1#16, 77#16], 2#16) := by decide

/-- A finite stack of depth 2 that is full (`95_test_vectors.md` section 2.8). -/
theorem test_push_overflow :
    faultOf { startAt 0 [2, 7] with stack := [1, 2], params := { Config.Params.default with stackDepth := some 2 } } =
      some .stackOverflow := by decide

/-- T-mov-12 and T-mov-16. -/
theorem test_pop_step : regPc { startAt 0 [3, 32769] with stack := [4, 9] } 1 = some (9#16, 2#16) ∧
    stackPc { startAt 0 [3, 32768] with stack := [40000] } = some ([], 2#16) := by decide

/-- T-mov-13 and T-mov-15: an empty stack; a bad destination comes first. -/
theorem test_pop_fault : faultOf (startAt 0 [3, 32769]) = some .stackUnderflow ∧
    faultOf (startAt 0 [3, 5]) = some .invalidRegisterOperand := by decide

/-- T-cmp-2 and T-cmp-11: 0 is written over the old value; a wide value is not masked. -/
theorem test_eq_step : regPc (((startAt 0 [4, 32768, 32769, 8]).setReg 0 9).setReg 1 7) 0 = some (0#16, 4#16) ∧
    regPc (((startAt 0 [4, 32768, 32769, 0]).setReg 0 1).setReg 1 32768) 0 = some (0#16, 4#16) := by decide

/-- T-cmp-3: a register equals itself. -/
theorem test_eq_same : regPc ((startAt 0 [4, 32768, 32768, 32768]).setReg 0 123) 0 = some (1#16, 4#16) := by decide

/-- T-cmp-6 and T-cmp-7: order and strictness. -/
theorem test_gt_step : regPc ((startAt 0 [5, 32768, 3, 10]).setReg 0 1) 0 = some (0#16, 4#16) ∧
    regPc ((startAt 0 [5, 32768, 3, 3]).setReg 0 1) 0 = some (0#16, 4#16) := by decide

/-- T-cmp-8 and T-cmp-10: unsigned on 16 bits. -/
theorem test_gt_unsigned : regPc (startAt 0 [5, 32768, 32767, 0]) 0 = some (1#16, 4#16) ∧
    regPc ((startAt 0 [5, 32768, 32769, 32767]).setReg 1 32768) 0 = some (1#16, 4#16) := by decide

/-- T-ctl-6: a wide target is accepted by the jump itself; T-fd-1: the next fetch faults. -/
theorem test_jmp_wide : pcRunning ((startAt 0 [6, 32768]).setReg 0 32768) = some (32768#16, true) ∧
    faultOf (startAt 32768 []) = some .outOfBoundsPC := by decide

/-- S7.1 and S7.2. -/
theorem test_jt_step : pcRunning ((startAt 10 [7, 32768, 100]).setReg 0 5) = some (100#16, true) ∧
    pcRunning (startAt 10 [7, 32768, 100]) = some (13#16, true) := by decide

/-- T-ctl-9: the target of a jump not taken is resolved. -/
theorem test_jt_fault_not_taken : faultOf (startAt 0 [7, 0, 40000]) = some .invalidOperand := by decide

/-- S7.5 and S7.6. -/
theorem test_jf_step : pcRunning (startAt 10 [8, 32768, 100]) = some (100#16, true) ∧
    pcRunning ((startAt 10 [8, 32768, 100]).setReg 0 5) = some (13#16, true) := by decide

/-- T-ctl-10. -/
theorem test_jf_fault_not_taken : faultOf (startAt 0 [8, 1, 40000]) = some .invalidOperand := by decide

/-- T-ctl-13 and T-ctl-16: the return address is not reduced. -/
theorem test_call_step : stackPc { (startAt 20 [17, 32768]).setReg 0 321 with stack := [7] } = some ([7#16, 22#16], 321#16) ∧
    stackPc (startAt 32766 [17, 2]) = some ([32768#16], 2#16) := by decide

/-- T-ctl-17 and T-ctl-18. -/
theorem test_ret_step : stackPc { startAt 60 [18] with stack := [22] } = some ([], 22#16) ∧
    pcRunning (startAt 60 [18]) = some (60#16, false) := by decide

/-- S1.1 and T-alu-5: the wrap; source and destination the same. -/
theorem test_add_step : regPc ((startAt 0 [9, 32768, 32767, 1]).setReg 0 9) 0 = some (0#16, 4#16) ∧
    regPc ((startAt 0 [9, 32768, 32768, 32768]).setReg 0 20000) 0 = some (7232#16, 4#16) := by decide

/-- T-alu-8: a 17-bit intermediate sum. -/
theorem test_add_wide : regPc ((startAt 0 [9, 32768, 32769, 32769]).setReg 1 65535) 0 = some (32766#16, 4#16) := by decide

/-- S1.4 and T-alu-13: the exact product before the reduction. -/
theorem test_mult_step : regPc (startAt 0 [10, 32768, 32767, 32767]) 0 = some (1#16, 4#16) ∧
    regPc ((startAt 0 [10, 32768, 32769, 32769]).setReg 1 65535) 0 = some (1#16, 4#16) := by decide

/-- S1.6 and T-alu-24: no reduction beyond the divisor. -/
theorem test_mod_step : regPc (startAt 0 [11, 32768, 3, 7]) 0 = some (3#16, 4#16) ∧
    regPc (((startAt 0 [11, 32768, 32769, 32770]).setReg 1 50000).setReg 2 65535) 0 = some (50000#16, 4#16) := by decide

/-- T-alu-20 and T-alu-41. -/
theorem test_mod_fault : faultOf ((startAt 0 [11, 32768, 7, 0]).setReg 0 9) = some .modByZero ∧
    faultOf (startAt 0 [11, 9, 7, 0]) = some .invalidRegisterOperand := by decide

/-- T-alu-25 and T-alu-31. -/
theorem test_and_step : regPc (startAt 0 [12, 32768, 32527, 4080]) 0 = some (3840#16, 4#16) ∧
    regPc (((startAt 0 [12, 32768, 32769, 32770]).setReg 1 32768).setReg 2 49152) 0 = some (32768#16, 4#16) := by decide

/-- T-alu-26 and T-alu-32. -/
theorem test_or_step : regPc (startAt 0 [13, 32768, 32527, 4080]) 0 = some (32767#16, 4#16) ∧
    regPc ((startAt 0 [13, 32768, 32769, 7]).setReg 1 32768) 0 = some (32775#16, 4#16) := by decide

/-- S2.2 and T-alu-37. -/
theorem test_not_step : regPc (startAt 0 [14, 32768, 21845]) 0 = some (10922#16, 3#16) ∧
    regPc ((startAt 0 [14, 32768, 32769]).setReg 1 40000) 0 = some (25535#16, 3#16) := by decide

/-- T-mem-3 and T-mem-7: a token cell is read whole; the highest address. -/
theorem test_rmem_step : regPc (startAt 0 [15, 32770, 1]) 2 = some (32770#16, 3#16) ∧
    regPc { startAt 0 [15, 32768, 32767] with mem := [(0, 15), (1, 32768), (2, 32767), (32767, 11)] } 0 = some (11#16, 3#16) := by
  decide

/-- T-mem-8: no wrap to address 0. -/
theorem test_rmem_fault : faultOf (((startAt 0 [15, 32768, 32769]).setReg 0 3).setReg 1 32768) = some .outOfBoundsAddress := by
  decide

/-- T-mem-11 and T-mem-14: the value of A is the address; storing 0 removes the entry. -/
theorem test_wmem_step : (after (((startAt 0 [16, 32768, 32769]).setReg 0 200).setReg 1 9)).bind (·.memRead 200) = some 9#16 ∧
    (after (startAt 0 [16, 3, 0, 21])).map (·.mem) = some [(0, 16), (1, 3)] := by decide

/-- T-mem-15 and T-mem-19. -/
theorem test_wmem_fault : faultOf ((startAt 0 [16, 32768, 5]).setReg 0 32768) = some .outOfBoundsAddress ∧
    faultOf (startAt 0 [16, 32776, 1]) = some .invalidOperand := by decide

/-- T-io-1 and T-io-2: appended at the right end; flushed without the newline. -/
theorem test_out_step : (after { startAt 0 [19, 65] with outbuf := [72] }).map (·.outbuf) = some [72#16, 65#16] ∧
    (after { startAt 0 [19, 10] with outbuf := [72, 105] }).map (fun t => (t.sink, t.outbuf)) = some ([[72#16, 105#16]], []) := by
  decide

/-- T-io-3: an empty line is one transaction. -/
theorem test_out_empty_line : (after ((startAt 0 [19, 32768]).setReg 0 10)).map (·.sink) = some [[]] := by decide

/-- T-io-8 and T-io-9: from the pending line; else the next line of the source. -/
theorem test_in_step : (after { startAt 0 [20, 32768] with inbuf := [104, 105, 10], source := [[1]] }).map
      (fun t => (t.getReg 0, t.inbuf, t.source)) = some (104#16, [105#16, 10#16], [[1#16]]) ∧
    (after { startAt 0 [20, 32769] with source := [[97, 10], [1]] }).map
      (fun t => (t.getReg 1, t.inbuf, t.source)) = some (97#16, [10#16], [[1#16]]) := by decide

/-- T-io-13 and T-io-15: no request on a bad destination; a wait changes nothing. -/
theorem test_in_fault_and_wait : faultOf { startAt 0 [20, 5] with source := [[97, 10]] } = some .invalidRegisterOperand ∧
    after (startAt 0 [20, 32768]) = some (startAt 0 [20, 32768]) := by decide

/-! ## Fetch, parameters, load -/

/-- T-fd-6, T-fd-7, T-fd-9: an instruction that straddles the top of Memory. -/
theorem test_fetch_straddles : faultOf (startAt 32767 [2]) = some .outOfBoundsPC ∧
    faultOf (startAt 32765 [9, 32768, 1]) = some .outOfBoundsPC ∧ faultOf (startAt 32766 [1, 32768]) = some .outOfBoundsPC := by
  decide

/-- T-fd-8: the last place a 4-cell instruction fits. -/
theorem test_fetch_last_place : regPc (startAt 32764 [9, 32768, 1, 2]) 0 = some (3#16, 32768#16) := by decide

/-- T-fd-10 and the restricted `IMPLEMENTED` of section 2.8. -/
theorem test_fetch_opcodes : faultOf (startAt 0 [22, 32776]) = some .unknownOpcode ∧
    faultOf { startAt 0 [20, 32768] with params := { Config.Params.default with implemented := [0, 21] } } =
      some .unimplementedOpcode ∧
    faultOf { startAt 0 [22] with params := { Config.Params.default with implemented := [0, 21] } } = some .unknownOpcode := by
  decide

/-- R170 and R191: the codes that T-mov-15 and a full stack show on the status outputs, and that of a graceful halt. -/
theorem test_status_codes : (after (startAt 0 [3, 5])).map (·.status) = some (false, 5) ∧
    (after { startAt 0 [2, 7] with stack := [1, 2], params := { Config.Params.default with stackDepth := some 2 } }).map
      (·.status) = some (false, 9) ∧
    (after (startAt 0 [0])).map (·.status) = some (false, 0) := by decide

/-- R98: a halted core has no step. -/
theorem test_halted : stopOf { State.reset with running := false } = some (.inl .halted) := by decide

/-- S9.1, S9.2, S9.3. -/
theorem test_image_format : imageWords [0x15, 0, 0] = .error .oddLength ∧
    imageWords [0x15, 0, 0x08, 0x80] = .error (.tokenOutOfRange 32776#16) ∧
    imageWords [0x15, 0, 0x07, 0x80, 0, 0] = .ok [21#16, 32775#16, 0#16] := by decide

/-- The first step of F11 from its image: `push 100`. -/
theorem test_resetWith : (State.resetWith [2, 100, 18]).bind stackPc = some ([100#16], 2#16) := by decide

/-- F9: with nothing placed, the first step executes `halt` at address 0. -/
theorem test_empty_image : State.resetWith [] = some State.reset ∧ pcRunning State.reset = some (1#16, false) := by decide

/-! ## Witnesses: for each obligation with hypotheses, concrete values that meet them all together -/

/-- A state in the middle of a run: pc 3, every register the wide value 40000, two stack entries, characters pending. -/
def busy : State :=
  { startAt 3 [9, 32768, 32767, 32775] with regs := Vector.replicate 8 40000, stack := [4, 9], outbuf := [72], inbuf := [104, 10],
                                            sink := [[1]], source := [[97, 10]] }

/-- The parameters with a finite stack of two entries and line buffers of one. -/
def small : Config.Params := { Config.Params.default with stackDepth := some 2, outbufDepth := some 1, inbufDepth := some 1 }

/-- No finite depth is exceeded where there is none, and at the last place of a finite one. -/
theorem witness_stack_room : (∀ d, busy.params.stackDepth = some d → busy.stack.length < d) ∧
    (∀ d, ({ busy with stack := [4], params := small } : State).params.stackDepth = some d →
      ({ busy with stack := [4], params := small } : State).stack.length < d) :=
  ⟨fun _ h => (by cases h), fun _ h => (by cases h; decide)⟩

theorem witness_DecodeEncodeRoundTrip : (Instr.add (.register 7) (.literal 32767) (.invalid 32776#16)).wf = true ∧
    Instr.halt.wf = true := by decide

theorem witness_EncodeDecodeRoundTrip : decode [9#16, 32775#16, 32767#16, 32776#16, 5#16] =
    .ok (.add (.register 7) (.literal 32767) (.invalid 32776#16), [5#16]) := by decide

/-- Each class at both ends of its range. -/
theorem witness_TokenClassesPartition : (0#16).toNat < 32768 ∧ (32767#16).toNat < 32768 ∧
    (32768 ≤ (32768#16).toNat ∧ (32768#16).toNat < 32776) ∧ (32768 ≤ (32775#16).toNat ∧ (32775#16).toNat < 32776) ∧
    32776 ≤ (32776#16).toNat ∧ 32776 ≤ (65535#16).toNat := by decide

/-- Each clause at both ends of its range. -/
theorem witness_ResolveValueRule : (0#16).toNat ≤ 32767 ∧ (32767#16).toNat ≤ 32767 ∧
    (32768#16).toNat = 32768 + (0 : RegIx).val ∧ (32775#16).toNat = 32768 + (7 : RegIx).val ∧
    32776 ≤ (32776#16).toNat ∧ 32776 ≤ (65535#16).toNat := by decide

/-- Each clause at both ends of its range. -/
theorem witness_ResolveRegisterTargetRule : (32768#16).toNat = 32768 + (0 : RegIx).val ∧
    (32775#16).toNat = 32768 + (7 : RegIx).val ∧ ((32767#16).toNat < 32768 ∨ 32776 ≤ (32767#16).toNat) ∧
    ((32776#16).toNat < 32768 ∨ 32776 ≤ (32776#16).toNat) := by decide

/-- A fault of A before one of B; of B where the jump is not taken; of C. -/
theorem witness_OperandFaultBeforeEffect :
    operandFault (.set (.literal 5) (.invalid 40000#16)) = some .invalidRegisterOperand ∧
    operandFault (.jt (.literal 0) (.invalid 40000#16)) = some .invalidOperand ∧
    operandFault (.and (.register 0) (.literal 1) (.invalid 65535#16)) = some .invalidOperand := by decide

/-- The clauses of `set`. -/
theorem witness_SetRule : resolveTarget (.literal 32767) = .error .invalidRegisterOperand ∧
    (resolveTarget (.register 7) = .ok 7 ∧ resolveValue busy (.invalid 32776#16) = .error .invalidOperand) ∧
    (resolveTarget (.register 7) = .ok 7 ∧ resolveValue busy (.register 7) = .ok 40000#16) := by decide

/-- The clauses of `push`: a bad operand; room (also `witness_stack_room`); a stack that is just full. -/
theorem witness_PushRule : resolveValue busy (.invalid 65535#16) = .error .invalidOperand ∧
    (resolveValue busy (.literal 32767) = .ok 32767#16 ∧ busy.params.stackDepth = none) ∧
    (resolveValue { busy with params := small } (.literal 7) = .ok 7#16 ∧ small.stackDepth = some 2 ∧
      2 ≤ busy.stack.length) := by decide

/-- The clauses of `pop`. -/
theorem witness_PopRule : resolveTarget (.invalid 32776#16) = .error .invalidRegisterOperand ∧
    (resolveTarget (.register 0) = .ok 0 ∧ State.reset.stack = []) ∧
    (resolveTarget (.register 7) = .ok 7 ∧ busy.stack = [4#16] ++ [9#16]) := by decide

/-- The clauses of `eq`: an operand fault, equal wide values, 32768 beside 0. -/
theorem witness_EqRule : operandFault (.eq (.literal 7) (.literal 1) (.literal 1)) = some .invalidRegisterOperand ∧
    (resolveTarget (.register 0) = .ok 0 ∧ resolveValue busy (.register 0) = .ok 40000#16) ∧
    (resolveValue (busy.setReg 1 32768) (.register 1) = .ok 32768#16 ∧
      resolveValue (busy.setReg 1 32768) (.literal 0) = .ok 0#16 ∧ 32768#16 ≠ 0#16) := by decide

/-- The clauses of `gt`: an operand fault, one more, equal. -/
theorem witness_GtRule : operandFault (.gt (.register 0) (.literal 1) (.invalid 32776#16)) = some .invalidOperand ∧
    (resolveTarget (.register 0) = .ok 0 ∧ resolveValue (busy.setReg 1 32768) (.register 1) = .ok 32768#16 ∧
      resolveValue (busy.setReg 1 32768) (.literal 32767) = .ok 32767#16 ∧ (32767#16).toNat < (32768#16).toNat) ∧
    (resolveValue busy (.literal 3) = .ok 3#16 ∧ (3#16).toNat ≤ (3#16).toNat) := by decide

/-- The clauses of `jmp`, with a target no fetch accepts. -/
theorem witness_JmpRule : resolveValue busy (.invalid 32776#16) = .error .invalidOperand ∧
    resolveValue busy (.register 0) = .ok 40000#16 := by decide

/-- The clauses of `jt` and of `jf`: a bad A, a bad B beside a zero A, both good with a zero and a nonzero value. -/
theorem witness_JtRule_JfRule : resolveValue busy (.invalid 32776#16) = .error .invalidOperand ∧
    (resolveValue busy (.literal 0) = .ok 0#16 ∧ resolveValue busy (.invalid 40000#16) = .error .invalidOperand) ∧
    (resolveValue busy (.literal 0) = .ok 0#16 ∧ resolveValue busy (.literal 100) = .ok 100#16 ∧ 0#16 = 0#16) ∧
    (resolveValue busy (.register 0) = .ok 40000#16 ∧ resolveValue busy (.literal 100) = .ok 100#16 ∧ 40000#16 ≠ 0#16) := by
  decide

/-- The clauses of `call`: as `push`. -/
theorem witness_CallRule : resolveValue busy (.invalid 32776#16) = .error .invalidOperand ∧
    (resolveValue busy (.register 0) = .ok 40000#16 ∧ busy.params.stackDepth = none) ∧
    (resolveValue { busy with params := small } (.literal 50) = .ok 50#16 ∧ small.stackDepth = some 2 ∧
      2 ≤ busy.stack.length) := by decide

/-- The clauses of `ret`. -/
theorem witness_RetRule : State.reset.stack = [] ∧ busy.stack = [4#16] ++ [9#16] := by decide

/-- The clauses of `add`, `mult`, `and`, `or`: an operand fault, and three operands that resolve, two of them wide. -/
theorem witness_AddRule_MultRule_AndRule_OrRule :
    (operandFault (.add (.literal 1) (.literal 2) (.literal 3)) = some .invalidRegisterOperand ∧
      operandFault (.mult (.register 0) (.invalid 32776#16) (.literal 1)) = some .invalidOperand ∧
      operandFault (.and (.register 0) (.literal 1) (.invalid 65535#16)) = some .invalidOperand ∧
      operandFault (.or (.invalid 32776#16) (.literal 1) (.literal 1)) = some .invalidRegisterOperand) ∧
    (resolveTarget (.register 7) = .ok 7 ∧ resolveValue busy (.register 7) = .ok 40000#16 ∧
      resolveValue busy (.register 0) = .ok 40000#16) := by decide

/-- The clauses of `mod`: an operand fault, a divisor of 0, the smallest other divisor. -/
theorem witness_ModRule : operandFault (.mod (.literal 9) (.literal 7) (.literal 0)) = some .invalidRegisterOperand ∧
    (resolveTarget (.register 0) = .ok 0 ∧ resolveValue busy (.register 1) = .ok 40000#16 ∧
      resolveValue busy (.literal 0) = .ok 0#16) ∧
    (resolveValue busy (.literal 1) = .ok 1#16 ∧ 1#16 ≠ 0#16) := by decide

/-- The clauses of `not`. -/
theorem witness_NotRule : operandFault (.not (.register 0) (.invalid 32776#16)) = some .invalidOperand ∧
    (resolveTarget (.register 7) = .ok 7 ∧ resolveValue busy (.register 7) = .ok 40000#16) := by decide

/-- The clauses of `rmem`: an operand fault, the last address, the first that does not exist. -/
theorem witness_RmemRule : operandFault (.rmem (.literal 5) (.literal 5)) = some .invalidRegisterOperand ∧
    (resolveTarget (.register 0) = .ok 0 ∧ resolveValue busy (.literal 32767) = .ok 32767#16 ∧ (32767#16).toNat ≤ 32767) ∧
    (resolveValue (busy.setReg 1 32768) (.register 1) = .ok 32768#16 ∧ 32767 < (32768#16).toNat) := by decide

/-- The clauses of `wmem` on canonical memory: a bad B, the last address, the first that does not exist. -/
theorem witness_WmemRule : busy.mem.wf = true ∧
    operandFault (.wmem (.literal 100) (.invalid 32776#16)) = some .invalidOperand ∧
    (resolveValue busy (.literal 32767) = .ok 32767#16 ∧ resolveValue busy (.register 2) = .ok 40000#16 ∧
      (32767#16).toNat ≤ 32767) ∧
    ((busy.setReg 1 32768).mem.wf = true ∧ resolveValue (busy.setReg 1 32768) (.register 1) = .ok 32768#16 ∧
      32767 < (32768#16).toNat) := by decide

/-- The clauses of `out`: a bad operand, the newline, the code after it, with no finite depth and with the last free place
of a finite one. -/
theorem witness_OutRule : resolveValue busy (.invalid 32776#16) = .error .invalidOperand ∧
    resolveValue busy (.literal 10) = .ok 10#16 ∧ (resolveValue busy (.literal 11) = .ok 11#16 ∧ 11#16 ≠ 10#16) ∧
    (∀ d, busy.params.outbufDepth = some d → busy.outbuf.length < d) ∧
    (∀ d, ({ startAt 0 [19, 11] with params := small } : State).params.outbufDepth = some d →
      ({ startAt 0 [19, 11] with params := small } : State).outbuf.length < d) :=
  ⟨by decide, by decide, by decide, fun _ h => (by cases h), fun _ h => (by cases h; decide)⟩

/-- The clauses of `in`: a bad destination, a pending line, the next line of the source with no finite depth and with a line
that just fits. -/
theorem witness_InRule : resolveTarget (.literal 0) = .error .invalidRegisterOperand ∧
    (resolveTarget (.register 7) = .ok 7 ∧ busy.inbuf = 104#16 :: [10#16]) ∧
    (({ busy with inbuf := [] } : State).inbuf = [] ∧ busy.source = (97#16 :: [10#16]) :: [] ∧
      ∀ d, busy.params.inbufDepth = some d → [10#16].length + 1 ≤ d) ∧
    (∀ d, small.inbufDepth = some d → ([] : List Cell).length + 1 ≤ d) :=
  ⟨by decide, by decide, ⟨rfl, rfl, fun _ h => (by cases h)⟩, fun _ h => (by cases h; decide)⟩

/-- No line yet, and an empty line at the head. -/
theorem witness_InWaitsUnchanged : resolveTarget (.register 7) = .ok 7 ∧
    (State.reset.inbuf = [] ∧ (State.reset.source = [] ∨ State.reset.source = [] :: [])) ∧
    ((State.reset.supplyLine []).inbuf = [] ∧ ((State.reset.supplyLine []).source = [] ∨
      (State.reset.supplyLine []).source = [] :: [])) := by decide

/-- An output buffer that is just full; a line one longer than the input buffer. -/
theorem witness_FiniteLineBufferRefused :
    (resolveValue { busy with params := small } (.literal 65) = .ok 65#16 ∧ 65#16 ≠ 10#16 ∧ small.outbufDepth = some 1 ∧
      1 ≤ busy.outbuf.length) ∧
    (resolveTarget (.register 0) = .ok 0 ∧ ({ busy with inbuf := [], params := small } : State).inbuf = [] ∧
      busy.source = (97#16 :: [10#16]) :: [] ∧ small.inbufDepth = some 1 ∧ 1 < [10#16].length + 1) := by decide

/-- Each of the ten has a next state, here by its own effect; `mod` also by a fault. -/
theorem witness_RegisterWriteFrame :
    (∀ i ∈ [Instr.set (.register 7) (.literal 1), .eq (.register 7) (.literal 1) (.register 7),
        .gt (.register 7) (.literal 1) (.register 7), .add (.register 7) (.literal 1) (.register 7),
        .mult (.register 7) (.literal 1) (.register 7), .mod (.register 7) (.literal 1) (.register 7),
        .and (.register 7) (.literal 1) (.register 7), .or (.register 7) (.literal 1) (.register 7),
        .not (.register 7) (.literal 1), .rmem (.register 7) (.literal 3)],
      i.opcode ∈ [Opcode.set, .eq, .gt, .add, .mult, .mod, .and, .or, .not, .rmem] ∧
      i.operands.head? ≠ some (.register 0)) ∧
    (∃ t, exec (.add (.register 7) (.literal 1) (.register 7)) busy = .next t ∧ t.running = true) ∧
    (∃ t, exec (.mod (.register 7) (.literal 1) (.literal 0)) busy = .next t ∧ t.running = false) :=
  ⟨by decide, ⟨_, rfl, rfl⟩, ⟨_, rfl, rfl⟩⟩

/-- Each of the four has a next state; `pop` also by a fault, `ret` also by the graceful halt. -/
theorem witness_StackFrame :
    (∃ t, exec (.push (.literal 1)) busy = .next t ∧ t.stack = busy.stack ++ [1]) ∧
    (∃ t, exec (.call (.literal 1)) busy = .next t ∧ t.stack = busy.stack ++ [5]) ∧
    (∃ t, exec (.pop (.register 7)) busy = .next t ∧ busy.stack = t.stack ++ [9]) ∧
    (∃ t, exec .ret busy = .next t ∧ busy.stack = t.stack ++ [9]) ∧
    (∃ t, exec (.pop (.register 7)) State.reset = .next t ∧ t.running = false) ∧
    (∃ t, exec .ret State.reset = .next t ∧ t.running = false) ∧
    Instr.ret.opcode ∈ [Opcode.push, .pop, .call, .ret] ∧ Instr.pop (.register 7) ≠ .pop (.register 0) :=
  ⟨⟨_, rfl, rfl⟩, ⟨_, rfl, rfl⟩, ⟨_, rfl, rfl⟩, ⟨_, rfl, rfl⟩, ⟨_, rfl, rfl⟩, ⟨_, rfl, rfl⟩, by decide, by decide⟩

/-- Each of the five has a next state; `jt` also by a fault. -/
theorem witness_ControlFrame :
    (∃ t, exec .halt busy = .next t ∧ t.running = false) ∧ (∃ t, exec .noop busy = .next t ∧ t.pc = 4) ∧
    (∃ t, exec (.jmp (.literal 7)) busy = .next t ∧ t.pc = 7) ∧
    (∃ t, exec (.jt (.literal 0) (.literal 7)) busy = .next t ∧ t.pc = 6) ∧
    (∃ t, exec (.jf (.literal 0) (.literal 7)) busy = .next t ∧ t.pc = 7) ∧
    (∃ t, exec (.jt (.literal 0) (.invalid 40000)) busy = .next t ∧ t.error = some .invalidOperand) ∧
    (Instr.jf (.literal 0) (.literal 7)).opcode ∈ [Opcode.halt, .noop, .jmp, .jt, .jf] :=
  ⟨⟨_, rfl, rfl⟩, ⟨_, rfl, rfl⟩, ⟨_, rfl, rfl⟩, ⟨_, rfl, rfl⟩, ⟨_, rfl, rfl⟩, ⟨_, rfl, rfl⟩, by decide⟩

/-- A store, a cell beside it, and an address that does not exist. -/
theorem witness_StoreFrame :
    (∃ t, exec (.wmem (.literal 32767) (.register 0)) busy = .next t ∧ t.running = true) ∧ (32766 ≠ (32767#16).toNat) ∧
    (∃ t, exec (.wmem (.register 0) (.literal 1)) busy = .next t ∧ t.error = some .outOfBoundsAddress) :=
  ⟨⟨_, rfl, rfl⟩, by decide, ⟨_, rfl, rfl⟩⟩

/-- Both have a next state; `out` also by a fault. -/
theorem witness_IoFrame :
    (∃ t, exec (.out (.literal 10)) busy = .next t ∧ t.sink = [[1], [72]]) ∧
    (∃ t, exec (.inp (.register 7)) busy = .next t ∧ t.inbuf = [10]) ∧
    (∃ t, exec (.out (.invalid 32776)) busy = .next t ∧ t.error = some .invalidOperand) ∧
    Token.register 7 ≠ .register 0 :=
  ⟨⟨_, rfl, rfl⟩, ⟨_, rfl, rfl⟩, ⟨_, rfl, rfl⟩, by decide⟩

/-- A 4-cell instruction in the last place it fits. -/
theorem witness_StepRunsDecodedInstruction :
    (startAt 32764 [9, 32768, 1, 32775]).running = true ∧
    (Instr.add (.register 0) (.literal 1) (.register 7)).wf = true ∧
    (startAt 32764 [9, 32768, 1, 32775]).params.implemented.contains Opcode.add.code = true ∧
    (startAt 32764 [9, 32768, 1, 32775]).pc.toNat + (encode (.add (.register 0) (.literal 1) (.register 7))).length ≤ 32768 ∧
    (∀ k, k < 4 → (encode (.add (.register 0) (.literal 1) (.register 7)))[k]? =
      some ((startAt 32764 [9, 32768, 1, 32775]).mem.read (32764 + k))) := by decide

/-- Each clause at its boundary: pc 32768; opcode cell 22 at 32767; an opcode left out; `push` at 32767. -/
theorem witness_FetchFaults :
    ((startAt 32768 []).running = true ∧ 32767 < (startAt 32768 []).pc.toNat) ∧
    ((startAt 32767 [22]).pc.toNat ≤ 32767 ∧ 21 < ((startAt 32767 [22]).mem.read 32767).toNat) ∧
    ((startAt 0 [20]).pc.toNat ≤ 32767 ∧ ((startAt 0 [20]).mem.read 0).toNat = Opcode.inp.code ∧
      [0, 21].contains Opcode.inp.code = false) ∧
    (((startAt 32767 [2]).mem.read 32767).toNat = Opcode.push.code ∧
      (startAt 32767 [2]).params.implemented.contains Opcode.push.code = true ∧ 32768 < 32767 + Opcode.push.length) := by decide

/-- A fault of each phase, each beside a later one that also applies; and no fault. -/
theorem witness_FaultPriority : State.reset.running = true ∧ State.reset.error = none ∧
    (startAt 32768 []).dueFault = some .outOfBoundsPC ∧ (startAt 0 [22, 32776]).dueFault = some .unknownOpcode ∧
    ({ startAt 32767 [2] with params := { Config.Params.default with implemented := [] } } : State).dueFault =
      some .unimplementedOpcode ∧
    (startAt 32766 [1, 5]).dueFault = some .outOfBoundsPC ∧ (startAt 0 [3, 5]).dueFault = some .invalidRegisterOperand ∧
    (startAt 0 [11, 32768, 65535, 0]).dueFault = some .invalidOperand ∧
    (startAt 0 [11, 32768, 7, 0]).dueFault = some .modByZero ∧ (startAt 0 [11, 32768, 7, 1]).dueFault = none := by decide

/-- A step that latches a cause. -/
theorem witness_FaultsArePrecise : busy.error = none ∧
    ∃ t, step { busy with mem := [(3, 11), (4, 32768), (5, 7)] } = .next t ∧ t.error = some .modByZero :=
  ⟨rfl, _, rfl, rfl⟩

/-- The three ways out of Running, and a halted core. -/
theorem witness_RunningLeftOnlyThreeWays : ({ State.reset with running := false } : State).running = false ∧
    (∃ t, step (startAt 0 [3, 5]) = .next t ∧ t.running = false) ∧ (∃ t, step (startAt 0 [0]) = .next t ∧ t.running = false) ∧
    (∃ t, step (startAt 0 [18]) = .next t ∧ t.running = false) :=
  ⟨rfl, ⟨_, rfl, rfl⟩, ⟨_, rfl, rfl⟩, ⟨_, rfl, rfl⟩⟩

theorem witness_RunningCoreAlwaysSteps : busy.running = true ∧ busy.params.outbufDepth = none ∧
    busy.params.inbufDepth = none := by decide

/-- An instruction of each row of the table, and an `in` that waits beside one that does not. -/
theorem witness_PcAdvanceTable :
    (∃ t, busy.fetch = .ok (.add (.register 0) (.literal 32767) (.register 7)) ∧ step busy = .next t ∧ t.error = none) ∧
    (∃ t, (startAt 32766 [17, 2]).fetch = .ok (.call (.literal 2)) ∧ step (startAt 32766 [17, 2]) = .next t ∧ t.error = none) ∧
    (∃ t, (startAt 9 [7, 0, 5]).fetch = .ok (.jt (.literal 0) (.literal 5)) ∧ step (startAt 9 [7, 0, 5]) = .next t ∧
      t.error = none) ∧
    (∃ t, (startAt 9 [8, 0, 5]).fetch = .ok (.jf (.literal 0) (.literal 5)) ∧ step (startAt 9 [8, 0, 5]) = .next t ∧
      t.error = none) ∧
    (∃ t, (startAt 9 [18]).fetch = .ok .ret ∧ step (startAt 9 [18]) = .next t ∧ t.error = none) ∧
    (∃ t, ((startAt 0 [20, 32768]).supplyLine [10]).fetch = .ok (.inp (.register 0)) ∧
      step ((startAt 0 [20, 32768]).supplyLine [10]) = .next t ∧ t.error = none ∧
      t ≠ (startAt 0 [20, 32768]).supplyLine [10]) :=
  ⟨⟨_, rfl, rfl, rfl⟩, ⟨_, rfl, rfl, rfl⟩, ⟨_, rfl, rfl, rfl⟩, ⟨_, rfl, rfl, rfl⟩, ⟨_, rfl, rfl, rfl⟩,
    ⟨_, rfl, rfl, rfl, by decide⟩⟩

/-- A step that changes each part of the state. -/
theorem witness_WritersOfEachState :
    (∃ t, step busy = .next t ∧ t.regs ≠ busy.regs) ∧
    (∃ t, step (startAt 0 [16, 9, 1]) = .next t ∧ t.mem ≠ (startAt 0 [16, 9, 1]).mem) ∧
    (∃ t, step (startAt 0 [2, 9]) = .next t ∧ t.stack ≠ []) ∧ (∃ t, step (startAt 0 [19, 9]) = .next t ∧ t.outbuf ≠ []) ∧
    (∃ t, step (startAt 0 [19, 10]) = .next t ∧ t.sink ≠ []) ∧
    (∃ t, step ((startAt 0 [20, 32768]).supplyLine [10]) = .next t ∧ t.source ≠ [[10]]) :=
  ⟨⟨_, rfl, by decide⟩, ⟨_, rfl, by decide⟩, ⟨_, rfl, by decide⟩, ⟨_, rfl, by decide⟩, ⟨_, rfl, by decide⟩,
    ⟨_, rfl, by decide⟩⟩

/-- An image the loader accepts, with the largest word. -/
theorem witness_InvariantsAfterLoad : (∃ s, State.resetWith [21, 32775, 0] = some s) ∧
    ∀ w ∈ [21#16, 32775#16, 0#16], w.toNat ≤ 32775 :=
  ⟨Option.isSome_iff_exists.mp (by decide), by simp⟩

/-- A state of the invariant that is not the reset state, and its next. -/
theorem witness_StepKeepsInvariant : busy.inv = true ∧ ∃ t, step busy = .next t := ⟨by decide, _, rfl⟩

/-- Each of the three cases, and a step that is none of them. -/
theorem witness_WordRangeLeftInExactlyThreeCases :
    (∀ s ∈ [startAt 0 [15, 32770, 1], startAt 32766 [17, 2], (startAt 0 [20, 32768]).supplyLine [32768, 10]],
      s.inv = true ∧ s.wordInv = true ∧ s.widens = true) ∧
    ((startAt 0 [15, 32770, 0]).inv = true ∧ (startAt 0 [15, 32770, 0]).wordInv = true ∧
      (startAt 0 [15, 32770, 0]).widens = false) ∧
    (∃ t, step (startAt 0 [15, 32770, 1]) = .next t) ∧ (∃ t, step (startAt 0 [15, 32770, 0]) = .next t) :=
  ⟨by decide, by decide, ⟨_, rfl⟩, ⟨_, rfl⟩⟩

/-- A next state, a fault and a refusal of the model, with no finite output depth. -/
theorem witness_OutputSideNotReadable : busy.params.outbufDepth = none ∧ (∃ t, step busy = .next t) ∧
    step { busy with running := false } = .fault .halted ∧
    step { startAt 0 [20, 32768] with source := [[97, 10]], params := { Config.Params.default with inbufDepth := some 1 } } =
      .refused .inbufDepthExceeded :=
  ⟨rfl, ⟨_, rfl⟩, rfl, rfl⟩

/-- Nothing pending and no line to come, under a `noop` and under an `in` with a bad destination; a pending character; a line
requested that is there. Each has a next state. -/
theorem witness_LaterLinesDoNotMatter :
    (∀ s ∈ [startAt 0 [21], startAt 0 [20, 5], { startAt 0 [20, 32768] with inbuf := [10] },
        (startAt 0 [20, 32768]).supplyLine [10], busy], ¬(s.lineRequested = true ∧ s.source = [])) ∧
    (∃ t, step (startAt 0 [21]) = .next t) ∧ (∃ t, step (startAt 0 [20, 5]) = .next t) ∧
    (∃ t, step { startAt 0 [20, 32768] with inbuf := [10] } = .next t) ∧
    ((startAt 0 [20, 32768]).supplyLine [10]).lineRequested = true ∧
    (∃ t, step ((startAt 0 [20, 32768]).supplyLine [10]) = .next t) ∧ ∃ t, step busy = .next t :=
  ⟨by decide, ⟨_, rfl⟩, ⟨_, rfl⟩, ⟨_, rfl⟩, by decide, ⟨_, rfl⟩, ⟨_, rfl⟩⟩

/-- A step that takes a line. -/
theorem witness_LineTakenOnlyWhenNeeded :
    ∃ t, step ((startAt 0 [20, 32768]).supplyLine [10]) = .next t ∧ t.source ≠ ((startAt 0 [20, 32768]).supplyLine [10]).source :=
  ⟨_, rfl, by decide⟩

/-- A step that delivers a line, here an empty one. -/
theorem witness_SinkGetsEachLineOnce : ∃ t, step (startAt 0 [19, 10]) = .next t ∧ t.sink ≠ (startAt 0 [19, 10]).sink :=
  ⟨_, rfl, by decide⟩

/-- A store to the cell the next fetch reads. -/
theorem witness_StoreSeenByNextFetch : (startAt 0 [16, 3, 21]).mem.wf = true ∧ (startAt 0 [16, 3, 21]).running = true ∧
    (startAt 0 [16, 3, 21]).fetch = .ok (.wmem (.literal 3) (.literal 21)) ∧
    resolveValue (startAt 0 [16, 3, 21]) (.literal 3) = .ok 3#16 ∧
    resolveValue (startAt 0 [16, 3, 21]) (.literal 21) = .ok 21#16 ∧ (3#16).toNat ≤ 32767 ∧
    (∃ t, step (startAt 0 [16, 3, 21]) = .next t ∧ t.pc = 3#16) :=
  ⟨by decide, by decide, by decide, by decide, by decide, by decide, _, rfl, by decide⟩

/-- For a literal and for a register. -/
theorem witness_PushThenPopMovesValue : resolveValue busy (.literal 1234) = .ok 1234#16 ∧
    resolveValue busy (.register 0) = .ok 40000#16 ∧ (∀ d, busy.params.stackDepth = some d → busy.stack.length < d) :=
  ⟨by decide, by decide, witness_stack_room.1⟩

/-- A call and a later state with the same stack. -/
theorem witness_CallThenRetResumesAfterCall : resolveValue busy (.literal 4) = .ok 4#16 ∧
    (∀ d, busy.params.stackDepth = some d → busy.stack.length < d) ∧
    ∃ t, exec (.call (.literal 4)) busy = .next t ∧ (t.setReg 0 1).stack = t.stack :=
  ⟨by decide, witness_stack_room.1, _, rfl, rfl⟩

/-- The last address and a wide value. -/
theorem witness_StoreThenLoadReturnsValue : busy.mem.wf = true ∧ resolveValue busy (.literal 32767) = .ok 32767#16 ∧
    resolveValue busy (.register 0) = .ok 40000#16 ∧ (32767#16).toNat ≤ 32767 := by decide

/-- An image of three words, a word of it, the first cell after it and the last cell of Memory. -/
theorem witness_ResetLeavesImageAndZeros : [2#16, 100#16, 18#16].length ≤ 32768 ∧ 2 < [2#16, 100#16, 18#16].length ∧
    ([2#16, 100#16, 18#16].length ≤ 3 ∧ 3 ≤ 32767) ∧ ([2#16, 100#16, 18#16].length ≤ 32767 ∧ 32767 ≤ 32767) := by decide

/-- The largest word accepted, an odd number of bytes, the smallest word rejected. -/
theorem witness_ImageFormatAccepted : imageWords [0x07, 0x80] = .ok [32775#16] ∧ [0x15#8, 0#8, 0#8].length % 2 = 1 ∧
    ∃ w ∈ [21#16, 32776#16], 32776 ≤ w.toNat :=
  ⟨by decide, by decide, 32776#16, by simp, by decide⟩

/-- A running, a gracefully halted and a faulted state of the invariant. -/
theorem witness_StatusTellsConditionsApart : (busy.inv = true ∧ busy.running = true) ∧
    (({ busy with running := false } : State).inv = true ∧ ({ busy with running := false } : State).graceful = true) ∧
    ((busy.raise .stackOverflow).inv = true ∧ (busy.raise .stackOverflow).faulted = true) := by decide

end Sys2Proof.Tests
end

section
/-! Reset with an image (R35, R56, R195): the state the reset event leaves, and what its Memory reads as. -/

namespace Sys2Proof.Machine

/-- `MemRead` inside the 32768 cells of Memory (R42). -/
theorem State.memRead_of_lt (s : State) {a : Nat} (ha : a < 32768) : s.memRead a = some (s.mem.read a) := if_pos ha

/-- Every register of the reset state reads 0 (R35). -/
theorem State.reset_regs_getElem (r : RegIx) : State.reset.regs[r] = 0#16 :=
  Vector.getElem_replicate r.isLt

/-- The state the reset event leaves: the image in Memory, what is outside the core kept, all else as in `State.reset`. -/
def State.loaded (ws : List Cell) (before : State) : State :=
  { State.reset with
    mem := Memory.ofWords 0 ws, params := before.params, sink := before.sink, source := before.source }

/-- The reset event succeeds with any image that fits Memory. -/
theorem State.applyReset_eq_loaded {ws : List Cell} (hws : ws.length ≤ 32768) (before : State) :
    State.applyReset ws before = some (State.loaded ws before) :=
  congrArg (Option.map _) (if_pos hws)

/-- Every cell of a loaded core holds its word of the image, 0 beyond the image. -/
theorem State.loaded_memRead {ws : List Cell} (hws : ws.length ≤ 32768) (before : State) {k : Nat} (hk : k < 32768) :
    (State.loaded ws before).memRead k = some (ws.getD k 0#16) := by
  have hread := Memory.read_ofWords 0 ws (by omega) k
  rw [Nat.zero_add] at hread
  rw [State.memRead_of_lt _ hk]
  exact congrArg some hread

/-- Settles O58: the reset event leaves `State.loaded`, whose Memory reads as the image and then zeros, and whose other
components are those of `State.reset`. -/
theorem resetLeavesImageAndZeros : Obligations.ResetLeavesImageAndZeros := by
  intro ws before hws
  refine ⟨State.loaded ws before, State.applyReset_eq_loaded hws before, ?image, ?zeros, State.reset_regs_getElem,
    rfl, rfl, rfl, rfl, rfl, rfl⟩
  case image =>
    intro k hk
    rw [State.loaded_memRead hws before (by omega), List.getD_eq_getElem ws 0#16 hk]
  case zeros =>
    intro k hlen hk
    rw [State.loaded_memRead hws before (by omega), List.getD_eq_default ws 0#16 hlen]

end Sys2Proof.Machine
end

section
/-! The bit tests on a raw cell that stand for its range (R63). -/

namespace Sys2Proof

/-- Bit 15 of a cell is set from 32768 upward. -/
theorem Cell.getLsbD_fifteen (t : Cell) : t.getLsbD 15 = decide (32768 ≤ t.toNat) :=
  BitVec.msb_eq_decide t

/-- Bits 14 to 3 of a cell, as a number. -/
theorem Cell.toNat_bits_three_to_fourteen (t : Cell) : (t.extractLsb' 3 12).toNat = t.toNat / 8 % 4096 := by
  rw [BitVec.extractLsb'_toNat, Nat.shiftRight_eq_div_pow]

/-- Bits 2 to 0 of a cell, as a number. -/
theorem Cell.toNat_bits_zero_to_two (t : Cell) : (t.extractLsb' 0 3).toNat = t.toNat % 8 := by
  rw [BitVec.extractLsb'_toNat, Nat.shiftRight_zero]

/-- Bits 14 to 3 are all clear when the cell's quotient by 8 is a multiple of 4096. -/
theorem Cell.bits_three_to_fourteen_eq_zero_iff (t : Cell) : t.extractLsb' 3 12 = 0#12 ↔ t.toNat / 8 % 4096 = 0 := by
  rw [← BitVec.toNat_inj, Cell.toNat_bits_three_to_fourteen, BitVec.toNat_ofNat, Nat.zero_mod]

/-- The literal range is the cells with bit 15 clear. -/
theorem Cell.literal_range_iff (t : Cell) : t.toNat < 32768 ↔ t.getLsbD 15 = false := by
  rw [Cell.getLsbD_fifteen, decide_eq_false_iff_not, Nat.not_le]

/-- The register range is the cells with bit 15 set and bits 14 to 3 clear. -/
theorem Cell.register_range_iff (t : Cell) :
    (32768 ≤ t.toNat ∧ t.toNat < 32776) ↔ (t.getLsbD 15 = true ∧ t.extractLsb' 3 12 = 0#12) := by
  have ht := t.isLt
  rw [Cell.getLsbD_fifteen, decide_eq_true_iff, Cell.bits_three_to_fourteen_eq_zero_iff]
  omega

/-- The invalid range is the cells with bit 15 set and some bit of 14 to 3 set. -/
theorem Cell.invalid_range_iff (t : Cell) :
    32776 ≤ t.toNat ↔ (t.getLsbD 15 = true ∧ t.extractLsb' 3 12 ≠ 0#12) := by
  have ht := t.isLt
  rw [Cell.getLsbD_fifteen, decide_eq_true_iff, ne_eq, Cell.bits_three_to_fourteen_eq_zero_iff]
  omega

end Sys2Proof

namespace Sys2Proof.Machine

/-- Settles O3: the ranges are those of `Token.ofCell_literal`, `Token.ofCell_of_register` and `Token.ofCell_invalid`, the bit
tests those of `Cell.literal_range_iff`, `Cell.register_range_iff` and `Cell.invalid_range_iff`. -/
theorem tokenClassesPartition : Obligations.TokenClassesPartition := by
  intro t
  refine ⟨?literal, ?register, ?invalid, t.literal_range_iff, t.register_range_iff, t.invalid_range_iff, ?index⟩
  case literal =>
    intro h
    exact ⟨t.setWidth 15, Token.ofCell_literal h, (BitVec.toNat_setWidth 15 t).trans (Nat.mod_eq_of_lt h)⟩
  case register =>
    intro h h'
    have hix : t.toNat - 32768 < 8 := by omega
    have ht : t.toNat = 32768 + (t.toNat - 32768) := by omega
    exact ⟨⟨t.toNat - 32768, hix⟩, Token.ofCell_of_register ht, rfl⟩
  case invalid =>
    intro h
    rw [Token.ofCell_invalid h]
    exact ⟨rfl, fun _ => rfl, rfl⟩
  case index =>
    intro h h'
    rw [Cell.toNat_bits_zero_to_two]
    omega

end Sys2Proof.Machine
end

section
/-! The image format (R44, R72, R185): the two bytes of a word, and the images `imageWords` accepts. -/

namespace Sys2Proof.Machine

/-- The bytes of a word, low byte first (R44, R72). -/
def wordBytes (w : Cell) : List (BitVec 8) := [w.setWidth 8, (w >>> 8).setWidth 8]

/-- The value of the word two bytes make (R72): no sum of the two wraps. -/
theorem imageWord_toNat (lo hi : BitVec 8) : (imageWord lo hi).toNat = lo.toNat + 256 * hi.toNat := by
  have hlo := lo.isLt
  have hhi := hi.isLt
  exact Nat.mod_eq_of_lt (by omega)

/-- The bytes of the word two bytes make are those two. -/
theorem wordBytes_imageWord (lo hi : BitVec 8) : wordBytes (imageWord lo hi) = [lo, hi] := by
  have hlo := lo.isLt
  have hlow : (imageWord lo hi).setWidth 8 = lo := by
    apply BitVec.eq_of_toNat_eq
    rw [BitVec.toNat_setWidth, imageWord_toNat]
    omega
  have hhigh : (imageWord lo hi >>> 8).setWidth 8 = hi := by
    have hhi := hi.isLt
    apply BitVec.eq_of_toNat_eq
    rw [BitVec.toNat_setWidth, BitVec.toNat_ushiftRight, Nat.shiftRight_eq_div_pow, imageWord_toNat]
    omega
  rw [wordBytes, hlow, hhigh]

/-- The bytes of a word make that word. -/
theorem imageWord_low_high (w : Cell) : imageWord (w.setWidth 8) ((w >>> 8).setWidth 8) = w := by
  have hw := w.isLt
  apply BitVec.eq_of_toNat_eq
  rw [imageWord_toNat, BitVec.toNat_setWidth, BitVec.toNat_setWidth, BitVec.toNat_ushiftRight, Nat.shiftRight_eq_div_pow]
  omega

/-- An image of at least two bytes is accepted when its first word is in range and the rest is accepted. -/
theorem imageWords_cons_cons_ok {lo hi : BitVec 8} {rest : List (BitVec 8)} {ws : List Cell} :
    imageWords (lo :: hi :: rest) = .ok ws ↔
      ∃ vs, imageWords rest = .ok vs ∧ (imageWord lo hi).toNat ≤ 32775 ∧ ws = imageWord lo hi :: vs := by
  rw [imageWords]
  by_cases hrange : (imageWord lo hi).toNat ≤ 32775
  · cases imageWords rest with
    | error e => cases e <;> simp [Nat.not_lt.mpr hrange]
    | ok vs => simp [Nat.not_lt.mpr hrange, hrange, eq_comm]
  · cases imageWords rest with
    | error e => cases e <;> simp [Nat.not_le.mp hrange]
    | ok vs => simp [Nat.not_le.mp hrange, hrange]

/-- The bytes of words are accepted, as those words and no others, exactly when every word is in range. -/
theorem imageWords_flatMap_wordBytes_ok {ws vs : List Cell} :
    imageWords (ws.flatMap wordBytes) = .ok vs ↔ vs = ws ∧ ∀ w ∈ ws, w.toNat ≤ 32775 := by
  induction ws generalizing vs with
  | nil => simp [imageWords, eq_comm]
  | cons w ws ih =>
    rw [List.flatMap_cons, wordBytes, List.cons_append, List.cons_append, List.nil_append, imageWords_cons_cons_ok,
      imageWord_low_high, List.forall_mem_cons]
    constructor
    · rintro ⟨us, hus, hw, rfl⟩
      obtain ⟨rfl, hws⟩ := ih.mp hus
      exact ⟨rfl, hw, hws⟩
    · rintro ⟨rfl, hw, hws⟩
      exact ⟨ws, ih.mpr ⟨rfl, hws⟩, hw, rfl⟩

/-- An accepted image is the bytes of the words it is accepted as. -/
theorem eq_flatMap_wordBytes_of_imageWords_ok :
    ∀ {bytes : List (BitVec 8)} {ws : List Cell}, imageWords bytes = .ok ws → bytes = ws.flatMap wordBytes
  | [], ws, h => by cases h; rfl
  | [_], ws, h => by cases h
  | lo :: hi :: rest, ws, h => by
    obtain ⟨vs, hvs, -, rfl⟩ := imageWords_cons_cons_ok.mp h
    rw [List.flatMap_cons, wordBytes_imageWord, ← eq_flatMap_wordBytes_of_imageWords_ok hvs]
    rfl

/-- Which images are accepted, and as which words (R72). -/
theorem imageWords_ok_iff {bytes : List (BitVec 8)} {ws : List Cell} :
    imageWords bytes = .ok ws ↔ bytes = ws.flatMap wordBytes ∧ ∀ w ∈ ws, w.toNat ≤ 32775 := by
  constructor
  · intro h
    obtain rfl := eq_flatMap_wordBytes_of_imageWords_ok h
    exact ⟨rfl, (imageWords_flatMap_wordBytes_ok.mp h).2⟩
  · rintro ⟨rfl, hws⟩
    exact imageWords_flatMap_wordBytes_ok.mpr ⟨rfl, hws⟩

/-- An image is rejected when it is accepted as no words. -/
theorem imageWords_rejected {bytes : List (BitVec 8)} (h : ∀ ws, imageWords bytes ≠ .ok ws) :
    ∃ e, imageWords bytes = .error e := by
  cases hb : imageWords bytes with
  | error e => exact ⟨e, rfl⟩
  | ok ws => exact absurd hb (h ws)

/-- Words have twice as many bytes, an even number. -/
theorem length_flatMap_wordBytes (ws : List Cell) : (ws.flatMap wordBytes).length = 2 * ws.length := by
  simp [List.length_flatMap, wordBytes, Nat.mul_comm]

/-- Settles O59: `imageWords_ok_iff` says which images are accepted; the bytes of words are never odd in number, and those
of a word out of range are accepted as no words. -/
theorem imageFormatAccepted : Obligations.ImageFormatAccepted := by
  refine ⟨fun bytes ws => imageWords_ok_iff, ?odd, ?outOfRange⟩
  case odd =>
    intro bytes hodd
    refine imageWords_rejected fun ws hok => ?_
    rw [eq_flatMap_wordBytes_of_imageWords_ok hok, length_flatMap_wordBytes] at hodd
    omega
  case outOfRange =>
    rintro ws ⟨w, hw, hlarge⟩
    refine imageWords_rejected fun vs hok => ?_
    obtain ⟨-, hrange⟩ := imageWords_flatMap_wordBytes_ok.mp hok
    have hsmall := hrange w hw
    omega

end Sys2Proof.Machine
end

section
/-! The operand resolver (R80, R81, R83): the two resolvers on raw tokens, and the fault of the first operand that does not
resolve. -/

namespace Sys2Proof.Machine

/-! ## Raw tokens (R80, R81) -/

/-- A raw token of the literal range is its own value. -/
theorem resolveValue_ofCell_literal {t : Cell} (s : State) (ht : t.toNat < 32768) :
    resolveValue s (Token.ofCell t) = .ok t := by
  have hround := Token.encode_ofCell t
  rw [Token.ofCell_literal ht] at hround ⊢
  exact congrArg Except.ok hround

/-- Settles O6: each range of raw tokens is one class of operand token, which `resolveValue` answers by its own equation. -/
theorem resolveValueRule : Obligations.ResolveValueRule := by
  intro t s
  refine ⟨?literal, ?register, ?invalid⟩
  case literal => exact fun ht => resolveValue_ofCell_literal s (by omega)
  case register =>
    intro r ht
    rw [Token.ofCell_of_register ht]
    rfl
  case invalid =>
    intro ht
    rw [Token.ofCell_invalid ht]
    rfl

/-- Settles O7: of the three classes of operand token only a register reference names a destination. -/
theorem resolveRegisterTargetRule : Obligations.ResolveRegisterTargetRule := by
  intro t
  refine ⟨?register, ?other⟩
  case register =>
    intro r ht
    rw [Token.ofCell_of_register ht]
    rfl
  case other =>
    rintro (ht | ht)
    · rw [Token.ofCell_literal ht]
      rfl
    · rw [Token.ofCell_invalid ht]
      rfl

/-! ## The first operand that does not resolve (R83) -/

/-- A value operand that resolves has no fault by its form. -/
theorem formCause_value_of_ok {t : Token} {s : State} {v : Cell} (h : resolveValue s t = .ok v) :
    formCause .value t = none := by
  cases t with
  | literal => rfl
  | register => rfl
  | invalid => cases h

/-- A value operand that does not resolve has the fault of its form. -/
theorem formCause_value_of_error {t : Token} {s : State} {e : Cause} (h : resolveValue s t = .error e) :
    formCause .value t = some e := by
  obtain rfl := resolveValue_error h
  cases t with
  | literal => cases h
  | register => cases h
  | invalid => rfl

/-- A destination operand that does not resolve has the fault of its form. -/
theorem formCause_target_of_error {t : Token} {e : Cause} (h : resolveTarget t = .error e) :
    formCause .target t = some e := by
  obtain rfl := resolveTarget_error h
  cases t with
  | literal => rfl
  | register => cases h
  | invalid => rfl

/-- The fault of the first operand that does not resolve, of operands still to be resolved, each with its form. -/
def firstCause (ps : List (Form × Token)) : Option Cause := ps.findSome? fun p => formCause p.1 p.2

theorem operandFault_eq_firstCause (i : Instr) : operandFault i = firstCause (i.opcode.forms.zip i.operands) := rfl

theorem firstCause_nil_ne_some (e : Cause) : firstCause [] ≠ some e := nofun

theorem firstCause_cons_of_none {f : Form} {t : Token} (h : formCause f t = none) (ps : List (Form × Token)) :
    firstCause ((f, t) :: ps) = firstCause ps := by
  simp [firstCause, h]

theorem firstCause_cons_of_some {f : Form} {t : Token} {e : Cause} (h : formCause f t = some e)
    (ps : List (Form × Token)) : firstCause ((f, t) :: ps) = some e := by
  simp [firstCause, h]

/-- Resolving a value operand raises the first fault due, if going on after it does so for the operands that remain. -/
theorem withValue_eq_fault {t : Token} {ps : List (Form × Token)} {s : State} {e : Cause} {k : Cell → Result}
    (h : firstCause ((.value, t) :: ps) = some e) (hk : ∀ v, firstCause ps = some e → k v = fault e s) :
    withValue t s k = fault e s := by
  obtain ⟨v, hv, hgo⟩ | ⟨e', he, hstop⟩ := withValue_cases t s k
  · rw [firstCause_cons_of_none (formCause_value_of_ok hv)] at h
    rw [hgo, hk v h]
  · rw [firstCause_cons_of_some (formCause_value_of_error he)] at h
    obtain rfl := Option.some.inj h
    exact hstop

/-- Resolving a destination operand raises the first fault due, if going on after it does so for the operands that
remain. -/
theorem withTarget_eq_fault {t : Token} {ps : List (Form × Token)} {s : State} {e : Cause} {k : RegIx → Result}
    (h : firstCause ((.target, t) :: ps) = some e) (hk : ∀ r, firstCause ps = some e → k r = fault e s) :
    withTarget t s k = fault e s := by
  obtain ⟨r, rfl, hgo⟩ | ⟨e', he, hstop⟩ := withTarget_cases t s k
  · rw [firstCause_cons_of_none rfl] at h
    rw [hgo, hk r h]
  · rw [firstCause_cons_of_some (formCause_target_of_error he)] at h
    obtain rfl := Option.some.inj h
    exact hstop

/-- An instruction with an operand that does not resolve is the fault of the first such operand: each of the six operand
formats resolves its operands one after the other before anything else. -/
theorem exec_eq_fault_of_operandFault {i : Instr} {s : State} {e : Cause} (h : operandFault i = some e) :
    exec i s = fault e s := by
  rw [operandFault_eq_firstCause] at h
  cases i with
  | halt | ret | noop => exact absurd h (firstCause_nil_ne_some e)
  | push | jmp | call | out => exact withValue_eq_fault h fun _ h => absurd h (firstCause_nil_ne_some e)
  | pop | inp => exact withTarget_eq_fault h fun _ h => absurd h (firstCause_nil_ne_some e)
  | jt | jf | wmem =>
    exact withValue_eq_fault h fun _ h => withValue_eq_fault h fun _ h => absurd h (firstCause_nil_ne_some e)
  | set | not | rmem =>
    exact withTarget_eq_fault h fun _ h => withValue_eq_fault h fun _ h => absurd h (firstCause_nil_ne_some e)
  | eq | gt | add | mult | mod | and | or =>
    exact withTarget_eq_fault h fun _ h => withValue_eq_fault h fun _ h => withValue_eq_fault h fun _ h =>
      absurd h (firstCause_nil_ne_some e)

/-- Settles O8: the fault of `exec_eq_fault_of_operandFault`, as the state that fault entry leaves. -/
theorem operandFaultBeforeEffect : Obligations.OperandFaultBeforeEffect := by
  intro i s e h
  rw [exec_eq_fault_of_operandFault h, fault_eq, State.raise]

end Sys2Proof.Machine
end

section
/-! The decoder by the number of cells (R60, R67, R69): an opcode above 21, operand cells missing, and an instruction of the
opcode its first cell numbers. -/

namespace Sys2Proof

/-- An instruction of one operand takes one cell. -/
theorem decode1_cases {f : Token → Instr} {o : Opcode} (hf : ∀ a, (f a).opcode = o) (rest : List Cell) :
    (rest.length < 1 ∧ decode1 f rest = none) ∨
      (1 ≤ rest.length ∧ ∃ i later, decode1 f rest = some (i, later) ∧ i.opcode = o) := by
  match rest with
  | [] => exact .inl ⟨by simp, rfl⟩
  | a :: later => exact .inr ⟨by simp, _, later, rfl, hf _⟩

/-- An instruction of two operands takes two cells. -/
theorem decode2_cases {f : Token → Token → Instr} {o : Opcode} (hf : ∀ a b, (f a b).opcode = o) (rest : List Cell) :
    (rest.length < 2 ∧ decode2 f rest = none) ∨
      (2 ≤ rest.length ∧ ∃ i later, decode2 f rest = some (i, later) ∧ i.opcode = o) := by
  match rest with
  | [] | [_] => exact .inl ⟨by simp, rfl⟩
  | a :: b :: later => exact .inr ⟨by simp, _, later, rfl, hf _ _⟩

/-- An instruction of three operands takes three cells. -/
theorem decode3_cases {f : Token → Token → Token → Instr} {o : Opcode} (hf : ∀ a b c, (f a b c).opcode = o)
    (rest : List Cell) :
    (rest.length < 3 ∧ decode3 f rest = none) ∨
      (3 ≤ rest.length ∧ ∃ i later, decode3 f rest = some (i, later) ∧ i.opcode = o) := by
  match rest with
  | [] | [_] | [_, _] => exact .inl ⟨by simp, rfl⟩
  | a :: b :: c :: later => exact .inr ⟨by simp, _, later, rfl, hf _ _ _⟩

/-- An opcode's operand cells are missing, or an instruction of that opcode is read from them. -/
theorem decodeOperands_cases (o : Opcode) (rest : List Cell) :
    (rest.length < o.forms.length ∧ decodeOperands o rest = none) ∨
      (o.forms.length ≤ rest.length ∧ ∃ i later, decodeOperands o rest = some (i, later) ∧ i.opcode = o) := by
  cases o with
  | halt | ret | noop => exact .inr ⟨Nat.zero_le _, _, rest, rfl, rfl⟩
  | push | pop | jmp | call | out | inp => exact decode1_cases (by intros; rfl) rest
  | set | jt | jf | not | rmem | wmem => exact decode2_cases (by intros; rfl) rest
  | eq | gt | add | mult | mod | and | or => exact decode3_cases (by intros; rfl) rest

/-- An opcode cell above 21 is no opcode, whatever follows it (R67). -/
theorem decode_unknown {c : Cell} (hc : 21 < c.toNat) (rest : List Cell) :
    decode (c :: rest) = .error (.unknownOpcode c) := by
  simp only [decode, Opcode.ofCode?_eq_none.mpr hc]

/-- A cell that numbers an opcode is the start of an instruction of that opcode, unless its operand cells are missing. -/
theorem decode_opcode_cases {c : Cell} {o : Opcode} (hc : c.toNat = o.code) (rest : List Cell) :
    (rest.length < o.forms.length ∧ decode (c :: rest) = .error (.truncated o)) ∨
      (o.forms.length ≤ rest.length ∧ ∃ i later, decode (c :: rest) = .ok (i, later) ∧ i.opcode = o) := by
  obtain ⟨hlen, hnone⟩ | ⟨hlen, i, later, hsome, hi⟩ := decodeOperands_cases o rest
  · exact .inl ⟨hlen, by simp only [decode, hc, Opcode.ofCode?_code, hnone]⟩
  · exact .inr ⟨hlen, i, later, by simp only [decode, hc, Opcode.ofCode?_code, hsome], hi⟩

end Sys2Proof
end

section
/-! The faults of fetch, opcode lookup and operand fetch (R91 to R94), and the precision of faults (R99). -/

namespace Sys2Proof.Machine

/-! ## The cells at the pc -/

/-- `MemRead` beyond the 32768 cells of Memory (R42). -/
theorem State.memRead_of_ge (s : State) {a : Nat} (ha : 32768 ≤ a) : s.memRead a = none := if_neg (Nat.not_lt.mpr ha)

/-- Of the addresses from one on, those below 32768 hold a cell (R94). -/
theorem State.length_filterMap_memRead_range' (s : State) (a n : Nat) :
    ((List.range' a n).filterMap s.memRead).length = min n (32768 - a) := by
  induction n generalizing a with
  | zero => simp
  | succ n ih =>
    rw [List.range'_succ]
    by_cases ha : a < 32768
    · rw [List.filterMap_cons_some (s.memRead_of_lt ha), List.length_cons, ih]
      omega
    · rw [List.filterMap_cons_none (s.memRead_of_ge (Nat.not_lt.mp ha)), ih]
      omega

/-- A pc beyond Memory addresses no cell. -/
theorem State.fetchCells_of_pc_beyond {s : State} (hpc : 32767 < s.pc.toNat) : s.fetchCells = [] := by
  have hlen := s.length_filterMap_memRead_range' s.pc.toNat 4
  exact List.length_eq_zero_iff.mp (hlen.trans (by omega))

/-- A pc inside Memory addresses the opcode cell, and after it as many of the three next cells as exist. -/
theorem State.fetchCells_of_pc_inside {s : State} (hpc : s.pc.toNat ≤ 32767) :
    ∃ rest, s.fetchCells = s.mem.read s.pc.toNat :: rest ∧ rest.length = min 3 (32767 - s.pc.toNat) := by
  have hlen := s.length_filterMap_memRead_range' (s.pc.toNat + 1) 3
  exact ⟨_, List.filterMap_cons_some (s.memRead_of_lt (by omega)), hlen.trans (by omega)⟩

/-! ## The faults of a fetch, in the order of R91 to R94 -/

/-- A pc beyond Memory (R91). -/
theorem State.fetch_of_pc_beyond {s : State} (hpc : 32767 < s.pc.toNat) : s.fetch = .error .outOfBoundsPC := by
  rw [State.fetch, State.fetchCells_of_pc_beyond hpc, decode]

/-- An opcode cell above 21 (R92). -/
theorem State.fetch_of_unknown {s : State} (hpc : s.pc.toNat ≤ 32767) (hop : 21 < (s.mem.read s.pc.toNat).toNat) :
    s.fetch = .error .unknownOpcode := by
  obtain ⟨rest, hcells, -⟩ := State.fetchCells_of_pc_inside hpc
  rw [State.fetch, hcells, decode_unknown hop]

/-- An opcode outside `IMPLEMENTED`, whether or not its operand cells exist (R93). -/
theorem State.fetch_of_unimplemented {s : State} {o : Opcode} (hpc : s.pc.toNat ≤ 32767)
    (hop : (s.mem.read s.pc.toNat).toNat = o.code) (himpl : s.implements o = false) :
    s.fetch = .error .unimplementedOpcode := by
  obtain ⟨rest, hcells, -⟩ := State.fetchCells_of_pc_inside hpc
  rw [State.fetch, hcells]
  obtain ⟨-, hd⟩ | ⟨-, i, later, hd, rfl⟩ := decode_opcode_cases hop rest
  · simp [hd, himpl]
  · simp [hd, himpl]

/-- Operand cells beyond Memory, of an implemented opcode (R94). -/
theorem State.fetch_of_operands_beyond {s : State} {o : Opcode} (hpc : s.pc.toNat ≤ 32767)
    (hop : (s.mem.read s.pc.toNat).toNat = o.code) (himpl : s.implements o = true)
    (hbeyond : 32768 < s.pc.toNat + o.length) : s.fetch = .error .outOfBoundsPC := by
  obtain ⟨rest, hcells, hrest⟩ := State.fetchCells_of_pc_inside hpc
  rw [State.fetch, hcells]
  have hforms : o.length = o.forms.length + 1 := rfl
  obtain ⟨-, hd⟩ | ⟨hlen, -⟩ := decode_opcode_cases hop rest
  · simp [hd, himpl]
  · omega

/-- A running core whose fetch raises a cause takes that fault. -/
theorem step_of_fetch_error {s : State} {e : Cause} (hrun : s.running = true) (hf : s.fetch = .error e) :
    step s = .next (s.raise e) := by
  simp only [step, hrun, hf, if_true, fault_eq]

/-- Settles O39: each clause is the cause of one `State.fetch_of_` lemma, taken by `step_of_fetch_error`. -/
theorem fetchFaults : Obligations.FetchFaults := by
  intro s hrun
  refine ⟨?pcBeyond, ?unknown, fun o hpc hop => ⟨?unimplemented, ?operandsBeyond⟩⟩
  case pcBeyond => exact fun hpc => step_of_fetch_error hrun (State.fetch_of_pc_beyond hpc)
  case unknown => exact fun hpc hop => step_of_fetch_error hrun (State.fetch_of_unknown hpc hop)
  case unimplemented => exact fun himpl => step_of_fetch_error hrun (State.fetch_of_unimplemented hpc hop himpl)
  case operandsBeyond =>
    exact fun himpl hbeyond => step_of_fetch_error hrun (State.fetch_of_operands_beyond hpc hop himpl hbeyond)

/-! ## The precision of faults (R99) -/

/-- An instruction takes a fault or leaves the latch as it is. -/
theorem Effect.raise_or_error_eq {i : Instr} {s s' : State} (h : Effect s i s') :
    (∃ e, s' = s.raise e) ∨ s'.error = s.error := by
  cases h with
  | raise _ e => exact .inl ⟨e, rfl⟩
  | out => exact .inr (by simp)
  | _ => exact .inr rfl

/-- A step takes a fault or leaves the latch as it is. -/
theorem step_raise_or_error_eq {s s' : State} (h : step s = .next s') : (∃ e, s' = s.raise e) ∨ s'.error = s.error := by
  obtain ⟨-, ⟨i, -, hexec⟩ | ⟨e, -, hs'⟩⟩ := step_next h
  · exact (exec_effect hexec).raise_or_error_eq
  · exact .inl ⟨e, hs'⟩

/-- Settles O41: a step that latches a cause took a fault, by `step_raise_or_error_eq`, and fault entry changes `running`
and `error` only. -/
theorem faultsArePrecise : Obligations.FaultsArePrecise := by
  intro s s' e hnone hstep hsome
  obtain ⟨e', rfl⟩ | hkept := step_raise_or_error_eq hstep
  · obtain rfl : e' = e := Option.some.inj hsome
    rfl
  · rw [hkept, hnone] at hsome
    cases hsome

end Sys2Proof.Machine
end

section
/-! The two system instructions, `halt` and `noop` (R110, R111). -/

namespace Sys2Proof

/-- An instruction without operands is its opcode cell alone (format `N`, R61). -/
theorem encode_of_operands_eq_nil {i : Instr} (h : i.operands = []) : encode i = [i.opcode.cell] := by
  rw [encode, h, List.map_nil]

end Sys2Proof

namespace Sys2Proof.Machine

/-- What `halt` does, in every state (R110): the default increment still applies. -/
theorem exec_halt (s : State) : exec .halt s = .next (s.halt.advance 1) := rfl

/-- What `noop` does, in every state (R111): the default increment, once. -/
theorem exec_noop (s : State) : exec .noop s = .next (s.advance 1) := rfl

/-- Settles O9: `halt` is its opcode cell, by `encode_of_operands_eq_nil`, and the state of `exec_halt` differs from the
old one in `running` and `pc` only. -/
theorem haltRule : Obligations.HaltRule := by
  intro s
  refine ⟨?encoding, ?effect⟩
  case encoding => exact encode_of_operands_eq_nil rfl
  case effect => rw [exec_halt, State.advance, State.halt]

/-- Settles O10: `noop` is its opcode cell, by `encode_of_operands_eq_nil`, and the state of `exec_noop` differs from the
old one in `pc` only. -/
theorem noopRule : Obligations.NoopRule := by
  intro s
  refine ⟨?encoding, ?effect⟩
  case encoding => exact encode_of_operands_eq_nil rfl
  case effect => rw [exec_noop, State.advance]

end Sys2Proof.Machine
end

section
/-! The three move and stack instructions, `set`, `push` and `pop` (R115, R116, R117). -/

namespace Sys2Proof.Machine

/-! ## The room and the top of the stack (R10, R28) -/

/-- One entry more fits exactly when a depth, if there is one, is not yet reached. -/
theorem fits_succ_iff {depth : Option Nat} {n : Nat} : fits depth (n + 1) = true ↔ ∀ d, depth = some d → n < d := by
  cases depth with
  | none => simp [fits]
  | some d => simp [fits]

theorem State.stackRoom_iff {s : State} :
    s.stackRoom = true ↔ ∀ d, s.params.stackDepth = some d → s.stack.length < d := fits_succ_iff

/-- A stack that has reached its FINITE depth has no room. -/
theorem State.not_stackRoom_of_full {s : State} {d : Nat} (hd : s.params.stackDepth = some d)
    (hfull : d ≤ s.stack.length) : ¬ s.stackRoom = true :=
  fun hroom => Nat.not_lt.mpr hfull (State.stackRoom_iff.mp hroom d hd)

/-- Dropping the top leaves the entries below it. -/
theorem State.dropTop_of_stack_eq {s : State} {below : List Cell} {v : Cell} (h : s.stack = below ++ [v]) :
    s.dropTop = { s with stack := below } := by
  rw [State.dropTop, h, List.dropLast_concat]

/-! ## An operand resolved before the only effect (R61, R83) -/

theorem writeOp2_target_error {a : Token} {e : Cause} (ha : resolveTarget a = .error e) (b : Token) (s : State)
    (f : Cell → Cell) : writeOp2 a b s f = fault e s :=
  withTarget_error s ha _

theorem writeOp2_value_error {a b : Token} {r : RegIx} {s : State} {e : Cause} (ha : resolveTarget a = .ok r)
    (hb : resolveValue s b = .error e) (f : Cell → Cell) : writeOp2 a b s f = fault e s := by
  rw [writeOp2, withTarget_ok s ha, withValue_error hb]

theorem writeOp2_ok {a b : Token} {r : RegIx} {s : State} {x : Cell} (ha : resolveTarget a = .ok r)
    (hb : resolveValue s b = .ok x) (f : Cell → Cell) : writeOp2 a b s f = .next ((s.setReg r (f x)).advance 3) := by
  rw [writeOp2, withTarget_ok s ha, withValue_ok hb]

/-! ## `set` (R115) -/

/-- `set` writes the value of B into register A unchanged. -/
theorem exec_set (a b : Token) (s : State) : exec (.set a b) s = writeOp2 a b s fun x => x := rfl

/-- Settles O11: `set` is a `writeOp2`, whose operands fail in the order A, B; the value resolved is the value written. -/
theorem setRule : Obligations.SetRule := by
  intro a b s
  refine ⟨rfl, ?noTarget, ?noValue, ?copied⟩
  case noTarget =>
    intro e ha
    refine ⟨resolveTarget_error ha, ?_⟩
    rw [exec_set, writeOp2_target_error ha, fault_eq, State.raise]
  case noValue =>
    intro r e ha hb
    refine ⟨resolveValue_error hb, ?_⟩
    rw [exec_set, writeOp2_value_error ha hb, fault_eq, State.raise]
  case copied =>
    intro r x ha hb
    rw [exec_set, writeOp2_ok ha hb, State.advance, State.setReg]

/-! ## `push` (R116) -/

theorem exec_push_error {a : Token} {s : State} {e : Cause} (ha : resolveValue s a = .error e) :
    exec (.push a) s = fault e s :=
  withValue_error ha _

theorem exec_push_ok {a : Token} {s : State} {x : Cell} (ha : resolveValue s a = .ok x) :
    exec (.push a) s = if s.stackRoom then .next ((s.push x).advance 2) else fault .stackOverflow s :=
  withValue_ok ha _

/-- Settles O12: after its operand `push` asks only for room, which `State.stackRoom_iff` tells by the depth. -/
theorem pushRule : Obligations.PushRule := by
  intro a s
  refine ⟨rfl, ?noValue, ?room, ?full⟩
  case noValue =>
    intro e ha
    refine ⟨resolveValue_error ha, ?_⟩
    rw [exec_push_error ha, fault_eq, State.raise]
  case room =>
    intro x ha hroom
    rw [exec_push_ok ha, if_pos (State.stackRoom_iff.mpr hroom), State.advance, State.push]
  case full =>
    intro x d ha hd hfull
    rw [exec_push_ok ha, if_neg (State.not_stackRoom_of_full hd hfull), fault_eq, State.raise]

/-! ## `pop` (R117) -/

theorem exec_pop_error {a : Token} {e : Cause} (ha : resolveTarget a = .error e) (s : State) :
    exec (.pop a) s = fault e s :=
  withTarget_error s ha _

theorem exec_pop_empty {a : Token} {r : RegIx} {s : State} (ha : resolveTarget a = .ok r) (hs : s.stack = []) :
    exec (.pop a) s = fault .stackUnderflow s := by
  rw [exec, execPop, withTarget_ok s ha, hs, List.getLast?_nil]

theorem exec_pop_top {a : Token} {r : RegIx} {s : State} {below : List Cell} {v : Cell}
    (ha : resolveTarget a = .ok r) (hs : s.stack = below ++ [v]) :
    exec (.pop a) s = .next ((s.dropTop.setReg r v).advance 2) := by
  rw [exec, execPop, withTarget_ok s ha, hs, List.getLast?_concat]

/-- Settles O13: the destination is checked first, then the two cases of the stack: empty, or entries below a top. -/
theorem popRule : Obligations.PopRule := by
  intro a s
  refine ⟨rfl, ?noTarget, ?empty, ?top⟩
  case noTarget =>
    intro e ha
    refine ⟨resolveTarget_error ha, ?_⟩
    rw [exec_pop_error ha, fault_eq, State.raise]
  case empty =>
    intro r ha hs
    rw [exec_pop_empty ha hs, fault_eq, State.raise]
  case top =>
    intro r below v ha hs
    rw [exec_pop_top ha hs, State.dropTop_of_stack_eq hs, State.setReg, State.advance]

end Sys2Proof.Machine
end

section
/-! The two comparisons, `eq` and `gt` (R120, R121). -/

namespace Sys2Proof.Machine

/-- Three operands that resolve: the one effect is the write of f(b, c) into register a (R61, R84). -/
theorem writeOp3_ok {a b c : Token} {r : RegIx} {s : State} {x y : Cell} (ha : resolveTarget a = .ok r)
    (hb : resolveValue s b = .ok x) (hc : resolveValue s c = .ok y) (f : Cell → Cell → Cell) :
    writeOp3 a b c s f = .next ((s.setReg r (f x y)).advance 4) := by
  rw [writeOp3, withTarget_ok s ha, withValue_ok hb, withValue_ok hc]

theorem flagCell_decide_of_true {p : Prop} [Decidable p] (h : p) : flagCell (decide p) = 1#16 := by
  rw [decide_eq_true h, flagCell, if_pos rfl]

theorem flagCell_decide_of_false {p : Prop} [Decidable p] (h : ¬ p) : flagCell (decide p) = 0#16 := by
  rw [decide_eq_false h, flagCell, if_neg Bool.false_ne_true]

/-- `eq` writes whether the values of B and C are equal into register A (R120). -/
theorem exec_eq (a b c : Token) (s : State) :
    exec (.eq a b c) s = writeOp3 a b c s fun x y => flagCell (decide (x = y)) := rfl

/-- `gt` writes whether the value of B is greater, unsigned, than that of C into register A (R121). -/
theorem exec_gt (a b c : Token) (s : State) :
    exec (.gt a b c) s = writeOp3 a b c s fun x y => flagCell (decide (y.toNat < x.toNat)) := rfl

/-- Settles O14: `eq` is a `writeOp3`, whose flag is that of the equality of the two values. -/
theorem eqRule : Obligations.EqRule := by
  intro a b c s
  refine ⟨rfl, operandFaultBeforeEffect _ s, fun r x y ha hb hc => ⟨?equal, ?different⟩⟩
  case equal =>
    intro hxy
    rw [exec_eq, writeOp3_ok ha hb hc, flagCell_decide_of_true hxy, State.advance, State.setReg]
  case different =>
    intro hxy
    rw [exec_eq, writeOp3_ok ha hb hc, flagCell_decide_of_false hxy, State.advance, State.setReg]

/-- Settles O15: `gt` is a `writeOp3`, whose flag is that of the strict unsigned order of the two values. -/
theorem gtRule : Obligations.GtRule := by
  intro a b c s
  refine ⟨rfl, operandFaultBeforeEffect _ s, fun r x y ha hb hc => ⟨?greater, ?notGreater⟩⟩
  case greater =>
    intro hyx
    rw [exec_gt, writeOp3_ok ha hb hc, flagCell_decide_of_true hyx, State.advance, State.setReg]
  case notGreater =>
    intro hxy
    rw [exec_gt, writeOp3_ok ha hb hc, flagCell_decide_of_false (Nat.not_lt.mpr hxy), State.advance, State.setReg]

end Sys2Proof.Machine
end

section
/-! The five control transfers, `jmp`, `jt`, `jf`, `call` and `ret` (R125 to R129). -/

namespace Sys2Proof.Machine

/-! ## `jmp` (R125) -/

/-- `jmp` sets the pc to the value of A, with no test on it. -/
theorem exec_jmp (a : Token) (s : State) : exec (.jmp a) s = withValue a s fun x => .next (s.setPc x) := rfl

/-- Settles O16: the operand of `exec_jmp` is the one thing that can fail. -/
theorem jmpRule : Obligations.JmpRule := by
  intro a s
  refine ⟨rfl, ?noValue, ?jumps⟩
  case noValue =>
    intro e ha
    refine ⟨resolveValue_error ha, ?_⟩
    rw [exec_jmp, withValue_error ha, fault_eq, State.raise]
  case jumps =>
    intro x ha
    rw [exec_jmp, withValue_ok ha, State.setPc]

/-! ## `jt` and `jf` (R126, R127) -/

theorem isNonzero_iff {v : Cell} : isNonzero v = true ↔ v ≠ 0#16 := decide_eq_true_iff

theorem not_isNonzero_of_eq_zero {v : Cell} (h : v = 0#16) : ¬ isNonzero v = true := fun hv => isNonzero_iff.mp hv h

/-- `jt` resolves both operands before its test, and goes to the target on a nonzero value. -/
theorem exec_jt (a b : Token) (s : State) : exec (.jt a b) s =
    withValue a s fun x => withValue b s fun y => .next (if isNonzero x then s.setPc y else s.advance 3) := rfl

/-- `jf` resolves both operands before its test, and goes to the target on zero. -/
theorem exec_jf (a b : Token) (s : State) : exec (.jf a b) s =
    withValue a s fun x => withValue b s fun y => .next (if isNonzero x then s.advance 3 else s.setPc y) := rfl

/-- Settles O17: both operands are resolved before the test of `exec_jt`, whose two answers are the two pcs. -/
theorem jtRule : Obligations.JtRule := by
  intro a b s
  refine ⟨rfl, ?noTested, ?noTarget, fun x y ha hb => ⟨?taken, ?notTaken⟩⟩
  case noTested =>
    intro e ha
    refine ⟨resolveValue_error ha, ?_⟩
    rw [exec_jt, withValue_error ha, fault_eq, State.raise]
  case noTarget =>
    intro x e ha hb
    refine ⟨resolveValue_error hb, ?_⟩
    rw [exec_jt, withValue_ok ha, withValue_error hb, fault_eq, State.raise]
  case taken =>
    intro hx
    rw [exec_jt, withValue_ok ha, withValue_ok hb, if_pos (isNonzero_iff.mpr hx), State.setPc]
  case notTaken =>
    intro hx
    rw [exec_jt, withValue_ok ha, withValue_ok hb, if_neg (not_isNonzero_of_eq_zero hx), State.advance]

/-- Settles O18: both operands are resolved before the test of `exec_jf`, whose two answers are the two pcs. -/
theorem jfRule : Obligations.JfRule := by
  intro a b s
  refine ⟨rfl, ?noTested, ?noTarget, fun x y ha hb => ⟨?taken, ?notTaken⟩⟩
  case noTested =>
    intro e ha
    refine ⟨resolveValue_error ha, ?_⟩
    rw [exec_jf, withValue_error ha, fault_eq, State.raise]
  case noTarget =>
    intro x e ha hb
    refine ⟨resolveValue_error hb, ?_⟩
    rw [exec_jf, withValue_ok ha, withValue_error hb, fault_eq, State.raise]
  case taken =>
    intro hx
    rw [exec_jf, withValue_ok ha, withValue_ok hb, if_neg (not_isNonzero_of_eq_zero hx), State.setPc]
  case notTaken =>
    intro hx
    rw [exec_jf, withValue_ok ha, withValue_ok hb, if_pos (isNonzero_iff.mpr hx), State.advance]

/-! ## `call` (R128) -/

/-- `call` pushes the address after it and sets the pc to the value of A, when the stack has room. -/
theorem exec_call (a : Token) (s : State) : exec (.call a) s = withValue a s fun x =>
    if s.stackRoom then .next ((s.push (s.pc + 2#16)).setPc x) else fault .stackOverflow s := rfl

/-- Settles O19: after its operand `call` asks only for room, which `State.stackRoom_iff` tells by the depth. -/
theorem callRule : Obligations.CallRule := by
  intro a s
  refine ⟨rfl, ?noValue, ?room, ?full⟩
  case noValue =>
    intro e ha
    refine ⟨resolveValue_error ha, ?_⟩
    rw [exec_call, withValue_error ha, fault_eq, State.raise]
  case room =>
    intro x ha hroom
    rw [exec_call, withValue_ok ha, if_pos (State.stackRoom_iff.mpr hroom), State.setPc, State.push]
  case full =>
    intro x d ha hd hfull
    rw [exec_call, withValue_ok ha, if_neg (State.not_stackRoom_of_full hd hfull), fault_eq, State.raise]

/-! ## `ret` (R129) -/

theorem exec_ret_empty {s : State} (hs : s.stack = []) : exec .ret s = .next s.halt := by
  rw [exec, execRet, hs, List.getLast?_nil]

theorem exec_ret_top {s : State} {below : List Cell} {v : Cell} (hs : s.stack = below ++ [v]) :
    exec .ret s = .next (s.dropTop.setPc v) := by
  rw [exec, execRet, hs, List.getLast?_concat]

/-- Settles O20: the two cases of the stack, empty or entries below a top, are the two answers of `ret`. -/
theorem retRule : Obligations.RetRule := by
  intro s
  refine ⟨encode_of_operands_eq_nil rfl, ?empty, ?top⟩
  case empty =>
    intro hs
    rw [exec_ret_empty hs, State.halt]
  case top =>
    intro below v hs
    rw [exec_ret_top hs, State.dropTop_of_stack_eq hs, State.setPc]

end Sys2Proof.Machine
end

section
/-! The six arithmetic and logic instructions, `add`, `mult`, `mod`, `and`, `or` and `not` (R136 to R141). -/

namespace Sys2Proof.Machine

/-! ## The results as natural numbers (R135) -/

/-- A number reduced modulo 32768 fits a cell, so storing it loses nothing. -/
theorem toNat_ofNat_mod_modulus (n : Nat) : (BitVec.ofNat 16 (n % Config.modulus)).toNat = n % 32768 := by
  have hlt : n % 32768 < 2 ^ 16 := by omega
  exact (BitVec.toNat_ofNat _ 16).trans (Nat.mod_eq_of_lt hlt)

theorem addCells_toNat (x y : Cell) : (addCells x y).toNat = (x.toNat + y.toNat) % 32768 :=
  toNat_ofNat_mod_modulus _

theorem multCells_toNat (x y : Cell) : (multCells x y).toNat = (x.toNat * y.toNat) % 32768 :=
  toNat_ofNat_mod_modulus _

/-- A remainder is no more than its dividend, a cell, so it needs no reduction. -/
theorem modCells_toNat (x y : Cell) : (modCells x y).toNat = x.toNat % y.toNat := by
  have hlt : x.toNat % y.toNat < 2 ^ 16 := (Nat.mod_le _ _).trans_lt x.isLt
  exact (BitVec.toNat_ofNat _ 16).trans (Nat.mod_eq_of_lt hlt)

/-- The mask keeps the low 15 bits, a reduction modulo 2 ^ 15; the complement of all 16 bits is 65535 minus the value. -/
theorem notCell_toNat (x : Cell) : (notCell x).toNat = 32767 - x.toNat % 32768 := by
  have hx := x.isLt
  calc (notCell x).toNat
    _ = (2 ^ 16 - 1 - x.toNat) &&& (2 ^ 15 - 1) := by rw [notCell, BitVec.toNat_and, BitVec.toNat_not]; rfl
    _ = (2 ^ 16 - 1 - x.toNat) % 2 ^ 15 := Nat.and_two_pow_sub_one_eq_mod _ 15
    _ = 32767 - x.toNat % 32768 := by omega

/-! ## What each instruction writes -/

/-- `add` writes the reduced sum of the values of B and C into register A (R136). -/
theorem exec_add (a b c : Token) (s : State) : exec (.add a b c) s = writeOp3 a b c s addCells := rfl

/-- `mult` writes the reduced product of the values of B and C into register A (R137). -/
theorem exec_mult (a b c : Token) (s : State) : exec (.mult a b c) s = writeOp3 a b c s multCells := rfl

/-- `and` writes the bitwise and of the values of B and C into register A (R139). -/
theorem exec_and (a b c : Token) (s : State) : exec (.and a b c) s = writeOp3 a b c s fun x y => x &&& y := rfl

/-- `or` writes the bitwise or of the values of B and C into register A (R140). -/
theorem exec_or (a b c : Token) (s : State) : exec (.or a b c) s = writeOp3 a b c s fun x y => x ||| y := rfl

/-- `not` writes the 15-bit complement of the value of B into register A (R141). -/
theorem exec_not (a b : Token) (s : State) : exec (.not a b) s = writeOp2 a b s notCell := rfl

/-- `mod` tests its divisor once all three operands are resolved, before it writes (R138). -/
theorem exec_mod_ok {a b c : Token} {r : RegIx} {s : State} {x y : Cell} (ha : resolveTarget a = .ok r)
    (hb : resolveValue s b = .ok x) (hc : resolveValue s c = .ok y) : exec (.mod a b c) s =
      if y = 0#16 then fault .modByZero s else .next ((s.setReg r (modCells x y)).advance 4) := by
  rw [exec, execMod, withTarget_ok s ha, withValue_ok hb, withValue_ok hc]

/-! ## The rules -/

/-- Settles O21: `add` is a `writeOp3`, whose value is the sum of `addCells_toNat`. -/
theorem addRule : Obligations.AddRule := by
  intro a b c s
  refine ⟨rfl, operandFaultBeforeEffect _ s, fun r x y ha hb hc => ⟨addCells x y, addCells_toNat x y, ?effect⟩⟩
  case effect => rw [exec_add, writeOp3_ok ha hb hc, State.advance, State.setReg]

/-- Settles O22: `mult` is a `writeOp3`, whose value is the product of `multCells_toNat`. -/
theorem multRule : Obligations.MultRule := by
  intro a b c s
  refine ⟨rfl, operandFaultBeforeEffect _ s, fun r x y ha hb hc => ⟨multCells x y, multCells_toNat x y, ?effect⟩⟩
  case effect => rw [exec_mult, writeOp3_ok ha hb hc, State.advance, State.setReg]

/-- Settles O23: after its operands `mod` asks only for a nonzero divisor, and its value is the remainder of
`modCells_toNat`. -/
theorem modRule : Obligations.ModRule := by
  intro a b c s
  refine ⟨rfl, operandFaultBeforeEffect _ s, fun r x y ha hb hc => ⟨?zero, ?nonzero⟩⟩
  case zero =>
    intro hy
    rw [exec_mod_ok ha hb hc, if_pos hy, fault_eq, State.raise]
  case nonzero =>
    intro hy
    refine ⟨modCells x y, modCells_toNat x y, ?_⟩
    rw [exec_mod_ok ha hb hc, if_neg hy, State.advance, State.setReg]

/-- Settles O24: `and` is a `writeOp3`, whose value has the bits of `BitVec.getLsbD_and`. -/
theorem andRule : Obligations.AndRule := by
  intro a b c s
  refine ⟨rfl, operandFaultBeforeEffect _ s, fun r x y ha hb hc => ⟨x &&& y, fun _ => BitVec.getLsbD_and, ?effect⟩⟩
  case effect => rw [exec_and, writeOp3_ok ha hb hc, State.advance, State.setReg]

/-- Settles O25: `or` is a `writeOp3`, whose value has the bits of `BitVec.getLsbD_or`. -/
theorem orRule : Obligations.OrRule := by
  intro a b c s
  refine ⟨rfl, operandFaultBeforeEffect _ s, fun r x y ha hb hc => ⟨x ||| y, fun _ => BitVec.getLsbD_or, ?effect⟩⟩
  case effect => rw [exec_or, writeOp3_ok ha hb hc, State.advance, State.setReg]

/-- Settles O26: `not` is a `writeOp2`, whose value is the masked complement, and by `notCell_toNat` the difference. -/
theorem notRule : Obligations.NotRule := by
  intro a b s
  refine ⟨rfl, operandFaultBeforeEffect _ s, fun r x ha hb => ⟨notCell x, notCell_toNat x, rfl, ?effect⟩⟩
  case effect => rw [exec_not, writeOp2_ok ha hb, State.advance, State.setReg]

end Sys2Proof.Machine
end

section
/-! The one load and the one store, `rmem` and `wmem` (R145, R146). -/

namespace Sys2Proof.Machine

/-! ## `MemWrite` (R42) -/

/-- `MemWrite` inside the 32768 cells of Memory changes the one cell. -/
theorem State.memWrite_of_lt (s : State) {a : Nat} (ha : a < 32768) (v : Cell) :
    s.memWrite a v = some { s with mem := s.mem.write a v } := if_pos ha

/-- `MemWrite` beyond the 32768 cells of Memory. -/
theorem State.memWrite_of_ge (s : State) {a : Nat} (ha : 32768 ≤ a) (v : Cell) : s.memWrite a v = none :=
  if_neg (Nat.not_lt.mpr ha)

/-! ## `rmem` (R145) -/

/-- `rmem` from an address inside Memory writes the cell there into register A. -/
theorem exec_rmem_inside {a b : Token} {r : RegIx} {s : State} {x : Cell} (ha : resolveTarget a = .ok r)
    (hb : resolveValue s b = .ok x) (hx : x.toNat < 32768) :
    exec (.rmem a b) s = .next ((s.setReg r (s.mem.read x.toNat)).advance 3) := by
  rw [exec, execRmem, withTarget_ok s ha, withValue_ok hb, s.memRead_of_lt hx]

/-- `rmem` from an address beyond Memory is a fault. -/
theorem exec_rmem_beyond {a b : Token} {r : RegIx} {s : State} {x : Cell} (ha : resolveTarget a = .ok r)
    (hb : resolveValue s b = .ok x) (hx : 32768 ≤ x.toNat) : exec (.rmem a b) s = fault .outOfBoundsAddress s := by
  rw [exec, execRmem, withTarget_ok s ha, withValue_ok hb, s.memRead_of_ge hx]

/-- Settles O27: after its operands `rmem` asks only for an address inside Memory. -/
theorem rmemRule : Obligations.RmemRule := by
  intro a b s
  refine ⟨rfl, operandFaultBeforeEffect _ s, fun r x ha hb => ⟨?inside, ?beyond⟩⟩
  case inside =>
    intro hx
    rw [exec_rmem_inside ha hb (Nat.lt_succ_of_le hx), State.advance, State.setReg]
  case beyond =>
    intro hx
    rw [exec_rmem_beyond ha hb hx, fault_eq, State.raise]

/-! ## `wmem` (R146) -/

/-- `wmem` to an address inside Memory writes the value of B into the cell there. -/
theorem exec_wmem_inside {a b : Token} {s : State} {x y : Cell} (ha : resolveValue s a = .ok x)
    (hb : resolveValue s b = .ok y) (hx : x.toNat < 32768) :
    exec (.wmem a b) s = .next (State.advance { s with mem := s.mem.write x.toNat y } 3) := by
  rw [exec, execWmem, withValue_ok ha, withValue_ok hb, s.memWrite_of_lt hx]

/-- `wmem` to an address beyond Memory is a fault. -/
theorem exec_wmem_beyond {a b : Token} {s : State} {x y : Cell} (ha : resolveValue s a = .ok x)
    (hb : resolveValue s b = .ok y) (hx : 32768 ≤ x.toNat) : exec (.wmem a b) s = fault .outOfBoundsAddress s := by
  rw [exec, execWmem, withValue_ok ha, withValue_ok hb, s.memWrite_of_ge hx]

/-- Settles O28: after its operands `wmem` asks only for an address inside Memory; what the memory it leaves reads is
`Memory.read_write_same`, which needs the canonical form, and `Memory.read_write_other`. -/
theorem wmemRule : Obligations.WmemRule := by
  intro a b s hwf
  refine ⟨rfl, operandFaultBeforeEffect _ s, fun x y ha hb => ⟨?inside, ?beyond⟩⟩
  case inside =>
    intro hx
    refine ⟨s.mem.write x.toNat y, ?effect, Memory.read_write_same hwf x.toNat y,
      fun k hk => Memory.read_write_other s.mem x.toNat k y hk⟩
    case effect => rw [exec_wmem_inside ha hb (Nat.lt_succ_of_le hx), State.advance]
  case beyond =>
    intro hx
    rw [exec_wmem_beyond ha hb hx, fault_eq, State.raise]

end Sys2Proof.Machine
end

section
/-! The order of faults (R181): the instruction fetched from the raw cells, the first operand that does not resolve, the
fault of the execute phase. -/

namespace Sys2Proof

/-! ## The operand tokens of a decoded instruction (R60, R63) -/

theorem decode1_operands {f : Token → Instr} {rest later : List Cell} {i : Instr} (hf : ∀ a, (f a).operands = [a])
    (h : decode1 f rest = some (i, later)) : i.operands = (rest.take 1).map Token.ofCell := by
  match rest with
  | [] => cases h
  | a :: _ =>
    cases h
    exact hf _

theorem decode2_operands {f : Token → Token → Instr} {rest later : List Cell} {i : Instr}
    (hf : ∀ a b, (f a b).operands = [a, b]) (h : decode2 f rest = some (i, later)) :
    i.operands = (rest.take 2).map Token.ofCell := by
  match rest with
  | [] | [_] => cases h
  | a :: b :: _ =>
    cases h
    exact hf _ _

theorem decode3_operands {f : Token → Token → Token → Instr} {rest later : List Cell} {i : Instr}
    (hf : ∀ a b c, (f a b c).operands = [a, b, c]) (h : decode3 f rest = some (i, later)) :
    i.operands = (rest.take 3).map Token.ofCell := by
  match rest with
  | [] | [_] | [_, _] => cases h
  | a :: b :: c :: _ =>
    cases h
    exact hf _ _ _

/-- An instruction has at most three operands (R60). -/
theorem Opcode.forms_length_le (o : Opcode) : o.forms.length ≤ 3 := by cases o <;> decide

/-- An opcode's operand tokens are the classes of the cells after the opcode cell, one for each form. -/
theorem decodeOperands_operands {o : Opcode} {rest later : List Cell} {i : Instr}
    (h : decodeOperands o rest = some (i, later)) : i.operands = (rest.take o.forms.length).map Token.ofCell := by
  cases o with
  | halt | ret | noop =>
    cases h
    rfl
  | push | pop | jmp | call | out | inp => exact decode1_operands (fun _ => rfl) h
  | set | jt | jf | not | rmem | wmem => exact decode2_operands (fun _ _ => rfl) h
  | eq | gt | add | mult | mod | and | or => exact decode3_operands (fun _ _ _ => rfl) h

end Sys2Proof

namespace Sys2Proof.Machine

/-! ## The instruction fetched from the raw cells (R94) -/

/-- The three raw cells after the opcode cell. -/
def State.operandCells (s : State) : List Cell := [s.cellAt 1, s.cellAt 2, s.cellAt 3]

theorem State.getElem?_operandCells (s : State) {k : Nat} (hk : k < 3) :
    s.operandCells[k]? = some (s.mem.read (s.pc.toNat + (k + 1))) := by
  interval_cases k <;> rfl

/-- The cells fetched after the opcode cell are the raw ones, as far as they lie inside Memory. -/
theorem State.take_fetched_operands {s : State} {c : Cell} {rest : List Cell} (hcells : s.fetchCells = c :: rest) {n : Nat}
    (hn : n ≤ 3) (hinside : s.pc.toNat + n < 32768) : rest.take n = s.operandCells.take n := by
  refine List.ext_getElem? fun k => ?_
  by_cases hk : k < n
  · have hfetched := State.fetchCells_of_le (s := s) (k := k + 1) (by omega) (by omega)
    rw [hcells, List.getElem?_cons_succ] at hfetched
    rw [List.getElem?_take_of_lt hk, List.getElem?_take_of_lt hk, hfetched, s.getElem?_operandCells (by omega)]
  · rw [List.getElem?_take_eq_none (Nat.not_lt.mp hk), List.getElem?_take_eq_none (Nat.not_lt.mp hk)]

/-- An implemented opcode whose operand cells lie inside Memory is fetched with those cells as its operands. -/
theorem State.fetch_of_operands_inside {s : State} {o : Opcode} (hop : (s.cellAt 0).toNat = o.code)
    (himpl : s.implements o = true) (hinside : s.pc.toNat + o.length ≤ 32768) :
    ∃ i, s.fetch = .ok i ∧ i.opcode = o ∧ i.operands = (s.operandCells.take o.forms.length).map Token.ofCell := by
  have hlength : o.length = o.forms.length + 1 := rfl
  obtain ⟨rest, hcells, hrest⟩ := State.fetchCells_of_pc_inside (s := s) (by omega)
  have hforms := Opcode.forms_length_le o
  obtain ⟨hmissing, -⟩ | ⟨-, i, later, hsome, rfl⟩ := decodeOperands_cases o rest
  · omega
  · refine ⟨i, ?fetched, rfl, ?operands⟩
    case fetched =>
      have hcode : (s.mem.read s.pc.toNat).toNat = i.opcode.code := hop
      simp only [State.fetch, hcells, decode, hcode, Opcode.ofCode?_code, hsome, himpl, if_true]
    case operands =>
      rw [decodeOperands_operands hsome, State.take_fetched_operands hcells hforms (by omega)]

/-! ## Raw tokens by form (R68, R80) -/

/-- A raw token has the fault of the token it is read as. -/
theorem rawCause_eq_formCause (t : Cell) (f : Form) : rawCause t f = formCause f (Token.ofCell t) := by
  by_cases hlit : t.toNat < 32768
  · rw [Token.ofCell_literal hlit]
    cases f with
    | target => exact if_neg (by omega)
    | value => exact if_pos (by omega)
  · by_cases hreg : t.toNat < 32776
    · rw [Token.ofCell_register (by omega) hreg]
      cases f with
      | target => exact if_pos (by omega)
      | value => exact if_pos (by omega)
    · rw [Token.ofCell_invalid (by omega)]
      cases f with
      | target => exact if_neg (by omega)
      | value => exact if_neg (by omega)

/-- The first cause of the raw tokens is that of the tokens they are read as. -/
theorem findSome?_rawCause_eq_firstCause (fs : List Form) (cells : List Cell) :
    (fs.zip cells).findSome? (fun p => rawCause p.2 p.1) =
      firstCause (fs.zip ((cells.take fs.length).map Token.ofCell)) := by
  induction fs generalizing cells with
  | nil => rfl
  | cons f fs ih =>
    cases cells with
    | nil => rfl
    | cons t cells =>
      rw [List.length_cons, List.take_succ_cons, List.map_cons, List.zip_cons_cons, List.zip_cons_cons, firstCause,
        List.findSome?_cons, List.findSome?_cons, rawCause_eq_formCause, ih, firstCause]

/-- A raw token that resolves has the value it stands for. -/
theorem State.tokenValue_of_resolves {s : State} {t v : Cell} (h : resolveValue s (Token.ofCell t) = .ok v) :
    s.tokenValue t = v := by
  by_cases hlit : t.toNat < 32768
  · rw [resolveValue_ofCell_literal s hlit] at h
    rw [State.tokenValue, if_pos hlit]
    exact Except.ok.inj h
  · by_cases hreg : t.toNat < 32776
    · rw [Token.ofCell_register (by omega) hreg] at h
      rw [State.tokenValue, if_neg hlit]
      exact Except.ok.inj h
    · rw [Token.ofCell_invalid (by omega)] at h
      cases h

/-! ## What it is to report a cause -/

/-- A result reports a cause when it is that fault; it reports none when no next state it answers has latched one. -/
def Reports (s : State) : Option Cause → Result → Prop
  | some e, r => r = fault e s
  | none, r => ∀ s', r = .next s' → s'.error = s.error

theorem reports_fault {s : State} {e : Cause} {c : Option Cause} {r : Result} (hc : c = some e) (hr : r = fault e s) :
    Reports s c r := by
  rw [hc]
  exact hr

theorem reports_next {s t : State} {c : Option Cause} {r : Result} (hc : c = none) (hr : r = .next t)
    (ht : t.error = s.error) : Reports s c r := by
  subst hc hr
  rintro _ ⟨⟩
  exact ht

/-- A push reports a full stack. -/
theorem reports_stackRoom {s t : State} (ht : t.error = s.error) :
    Reports s (if s.stackRoom then none else some .stackOverflow)
      (if s.stackRoom then .next t else fault .stackOverflow s) := by
  by_cases hroom : s.stackRoom = true
  · exact reports_next (if_pos hroom) (if_pos hroom) ht
  · exact reports_fault (if_neg hroom) (if_neg hroom)

/-- A value operand without a fault leaves the report to what goes on with its value. -/
theorem withValue_reports {t : Token} {ps : List (Form × Token)} {s : State} {k : Cell → Result} {c : Option Cause}
    (h : firstCause ((.value, t) :: ps) = none)
    (hk : ∀ v, resolveValue s t = .ok v → firstCause ps = none → Reports s c (k v)) : Reports s c (withValue t s k) := by
  obtain ⟨v, hv, hgo⟩ | ⟨e, he, -⟩ := withValue_cases t s k
  · rw [firstCause_cons_of_none (formCause_value_of_ok hv)] at h
    rw [hgo]
    exact hk v hv h
  · rw [firstCause_cons_of_some (formCause_value_of_error he)] at h
    cases h

/-- A destination operand without a fault leaves the report to what goes on with its register. -/
theorem withTarget_reports {t : Token} {ps : List (Form × Token)} {s : State} {k : RegIx → Result} {c : Option Cause}
    (h : firstCause ((.target, t) :: ps) = none) (hk : ∀ r, firstCause ps = none → Reports s c (k r)) :
    Reports s c (withTarget t s k) := by
  obtain ⟨r, rfl, hgo⟩ | ⟨e, he, -⟩ := withTarget_cases t s k
  · rw [firstCause_cons_of_none rfl] at h
    rw [hgo]
    exact hk r h
  · rw [firstCause_cons_of_some (formCause_target_of_error he)] at h
    cases h

/-! ## The execute phase (R181, item 8) -/

/-- Asking for a character leaves the fault latch as it is. -/
theorem State.nextInputChar_error_eq {s t : State} {c : Cell} (h : s.nextInputChar = .char c t) : t.error = s.error := by
  obtain ⟨_, -, rfl⟩ | ⟨_, _, -, -, -, rfl⟩ := State.nextInputChar_char h
  · rfl
  · rfl

/-- An instruction whose operands are the raw cells after the pc, and all resolve, reports the cause of the execute phase.
Only six opcodes can have one; for `mod`, `rmem` and `wmem`, `cases hops` puts the raw cells in place of the operands, which
their causes are read from. -/
theorem exec_reports_executeCause {i : Instr} {s : State}
    (hops : i.operands = (s.operandCells.take i.opcode.forms.length).map Token.ofCell) (h : operandFault i = none) :
    Reports s (s.executeCause i.opcode) (exec i s) := by
  rw [operandFault_eq_firstCause] at h
  cases i with
  | halt | noop => exact reports_next rfl rfl rfl
  | ret =>
    intro s' hexec
    obtain ⟨v, -, rfl⟩ | ⟨-, rfl⟩ := exec_ret_next hexec
    · rfl
    · rfl
  | jmp => exact withValue_reports h fun _ _ _ => reports_next rfl rfl rfl
  | jt | jf =>
    refine withValue_reports h fun x _ h => withValue_reports h fun y _ _ => reports_next rfl rfl ?_
    cases isNonzero x <;> rfl
  | set | not => exact withTarget_reports h fun _ h => withValue_reports h fun _ _ _ => reports_next rfl rfl rfl
  | eq | gt | add | mult | and | or =>
    exact withTarget_reports h fun _ h => withValue_reports h fun _ _ h => withValue_reports h fun _ _ _ =>
      reports_next rfl rfl rfl
  | out =>
    refine withValue_reports h fun x _ _ => ?_
    by_cases hroom : s.outbufRoom x = true
    · exact reports_next rfl (if_pos hroom) (by simp)
    · rw [if_neg hroom]
      exact nofun
  | inp =>
    refine withTarget_reports h fun r _ => ?_
    cases hin : s.nextInputChar with
    | char c t => exact reports_next rfl rfl (State.nextInputChar_error_eq hin :)
    | wait => exact reports_next rfl rfl rfl
    | tooLong => exact nofun
  | push | call => exact withValue_reports h fun _ _ _ => reports_stackRoom rfl
  | pop =>
    refine withTarget_reports h fun r _ => ?_
    obtain hs | ⟨below, v, hs⟩ := List.eq_nil_or_concat s.stack
    · exact reports_fault (if_pos hs) (by rw [hs, List.getLast?_nil])
    · rw [hs, List.concat_eq_append, List.getLast?_concat]
      exact reports_next (if_neg (by simp [hs])) rfl rfl
  | mod a b c =>
    cases hops
    refine withTarget_reports h fun r h => withValue_reports h fun x _ h => withValue_reports h fun y hy _ => ?_
    obtain rfl := State.tokenValue_of_resolves hy
    by_cases hzero : s.tokenValue (s.cellAt 3) = 0#16
    · exact reports_fault (if_pos hzero) (if_pos hzero)
    · exact reports_next (if_neg hzero) (if_neg hzero) rfl
  | rmem a b =>
    cases hops
    refine withTarget_reports h fun r h => withValue_reports h fun x hx _ => ?_
    obtain rfl := State.tokenValue_of_resolves hx
    by_cases hbeyond : 32767 < (s.tokenValue (s.cellAt 2)).toNat
    · exact reports_fault (if_pos hbeyond) (by rw [s.memRead_of_ge hbeyond])
    · rw [s.memRead_of_lt (by omega)]
      exact reports_next (if_neg hbeyond) rfl rfl
  | wmem a b =>
    cases hops
    refine withValue_reports h fun x hx h => withValue_reports h fun y _ _ => ?_
    obtain rfl := State.tokenValue_of_resolves hx
    by_cases hbeyond : 32767 < (s.tokenValue (s.cellAt 1)).toNat
    · exact reports_fault (if_pos hbeyond) (by rw [s.memWrite_of_ge hbeyond])
    · rw [s.memWrite_of_lt (by omega)]
      exact reports_next (if_neg hbeyond) rfl rfl

/-- An instruction whose operands are the raw cells after the pc reports its first operand fault, else the cause of the
execute phase. -/
theorem exec_reports {i : Instr} {s : State}
    (hops : i.operands = (s.operandCells.take i.opcode.forms.length).map Token.ofCell) :
    Reports s ((operandFault i).or (s.executeCause i.opcode)) (exec i s) := by
  cases h : operandFault i with
  | none => exact exec_reports_executeCause hops h
  | some e => exact exec_eq_fault_of_operandFault h

/-! ## The order of the phases (R181) -/

/-- A pc beyond Memory comes first. -/
theorem State.dueFault_of_pc_beyond {s : State} (hpc : 32767 < s.pc.toNat) : s.dueFault = some .outOfBoundsPC :=
  if_pos hpc

/-- An opcode cell above 21 comes next. -/
theorem State.dueFault_of_unknown {s : State} (hpc : s.pc.toNat ≤ 32767)
    (hop : Opcode.ofCode? (s.cellAt 0).toNat = none) : s.dueFault = some .unknownOpcode := by
  simp only [State.dueFault, hop, if_neg (Nat.not_lt.mpr hpc)]

/-- An opcode outside `IMPLEMENTED` comes before its operand cells. -/
theorem State.dueFault_of_unimplemented {s : State} {o : Opcode} (hpc : s.pc.toNat ≤ 32767)
    (hop : (s.cellAt 0).toNat = o.code) (himpl : s.implements o = false) : s.dueFault = some .unimplementedOpcode := by
  rw [State.implements] at himpl
  simp only [State.dueFault, if_neg (Nat.not_lt.mpr hpc), hop, Opcode.ofCode?_code, himpl, Bool.not_false, if_true]

/-- Operand cells beyond Memory come before any operand. -/
theorem State.dueFault_of_operands_beyond {s : State} {o : Opcode} (hpc : s.pc.toNat ≤ 32767)
    (hop : (s.cellAt 0).toNat = o.code) (himpl : s.implements o = true) (hbeyond : 32768 < s.pc.toNat + o.length) :
    s.dueFault = some .outOfBoundsPC := by
  rw [State.implements] at himpl
  simp only [State.dueFault, if_neg (Nat.not_lt.mpr hpc), hop, Opcode.ofCode?_code, himpl, Bool.not_true,
    Bool.false_eq_true, if_false, if_pos hbeyond]

/-- With all its cells there, the instruction's operands come before its execute phase. -/
theorem State.dueFault_of_operands_inside {s : State} {i : Instr} (hop : (s.cellAt 0).toNat = i.opcode.code)
    (himpl : s.implements i.opcode = true) (hinside : s.pc.toNat + i.opcode.length ≤ 32768)
    (hops : i.operands = (s.operandCells.take i.opcode.forms.length).map Token.ofCell) :
    s.dueFault = (operandFault i).or (s.executeCause i.opcode) := by
  have hlength : i.opcode.length = i.opcode.forms.length + 1 := rfl
  have hcauses := findSome?_rawCause_eq_firstCause i.opcode.forms s.operandCells
  rw [← hops, ← operandFault_eq_firstCause, State.operandCells] at hcauses
  rw [State.implements] at himpl
  simp only [State.dueFault, if_neg (show ¬ 32767 < s.pc.toNat by omega), hop, Opcode.ofCode?_code, himpl, Bool.not_true,
    Bool.false_eq_true, if_false, if_neg (Nat.not_lt.mpr hinside), hcauses]
  cases operandFault i <;> rfl

/-- A running core's step reports the first cause that applies, phase by phase. -/
theorem step_reports_dueFault {s : State} (hrun : s.running = true) : Reports s s.dueFault (step s) := by
  by_cases hpc : s.pc.toNat ≤ 32767
  case neg =>
    have hbeyond := Nat.not_le.mp hpc
    exact reports_fault (State.dueFault_of_pc_beyond hbeyond) (step_of_fetch_error hrun (State.fetch_of_pc_beyond hbeyond))
  cases hcode : Opcode.ofCode? (s.cellAt 0).toNat with
  | none =>
    exact reports_fault (State.dueFault_of_unknown hpc hcode)
      (step_of_fetch_error hrun (State.fetch_of_unknown hpc (Opcode.ofCode?_eq_none.mp hcode)))
  | some o =>
    have hop : (s.cellAt 0).toNat = o.code := (Opcode.code_of_ofCode? hcode).symm
    cases himpl : s.implements o with
    | false =>
      exact reports_fault (State.dueFault_of_unimplemented hpc hop himpl)
        (step_of_fetch_error hrun (State.fetch_of_unimplemented hpc hop himpl))
    | true =>
      by_cases hinside : s.pc.toNat + o.length ≤ 32768
      · obtain ⟨i, hfetch, rfl, hops⟩ := State.fetch_of_operands_inside hop himpl hinside
        have hstep : step s = exec i s := by simp only [step, hrun, hfetch, if_true]
        rw [State.dueFault_of_operands_inside hop himpl hinside hops, hstep]
        exact exec_reports hops
      · have hbeyond := Nat.not_le.mp hinside
        exact reports_fault (State.dueFault_of_operands_beyond hpc hop himpl hbeyond)
          (step_of_fetch_error hrun (State.fetch_of_operands_beyond hpc hop himpl hbeyond))

/-- Settles O40: the two clauses are the two cases of `step_reports_dueFault`, a cause due and none. -/
theorem faultPriority : Obligations.FaultPriority := by
  intro s hrun hlatch
  have hreports := step_reports_dueFault hrun
  refine ⟨fun e hdue => ?due, fun hdue s' hstep => ?noneDue⟩
  case due =>
    rw [hdue] at hreports
    exact hreports
  case noneDue =>
    rw [hdue] at hreports
    exact (hreports s' hstep).trans hlatch

end Sys2Proof.Machine
end

section
/-! The round trips between instructions and their cells (R60 to R70), and the opcode map read row by row (R66). -/

namespace Sys2Proof

/-! ## Encode, then decode -/

theorem decode1_encode {a : Token} (ha : a.wf = true) (f : Token → Instr) (rest : List Cell) :
    decode1 f (a.encode :: rest) = some (f a, rest) := by
  rw [decode1, Token.ofCell_encode ha]

theorem decode2_encode {a b : Token} (h : (a.wf && b.wf) = true) (f : Token → Token → Instr) (rest : List Cell) :
    decode2 f (a.encode :: b.encode :: rest) = some (f a b, rest) := by
  obtain ⟨ha, hb⟩ := Bool.and_eq_true_iff.mp h
  rw [decode2, Token.ofCell_encode ha, Token.ofCell_encode hb]

theorem decode3_encode {a b c : Token} (h : (a.wf && b.wf && c.wf) = true) (f : Token → Token → Token → Instr)
    (rest : List Cell) : decode3 f (a.encode :: b.encode :: c.encode :: rest) = some (f a b c, rest) := by
  obtain ⟨hab, hc⟩ := Bool.and_eq_true_iff.mp h
  obtain ⟨ha, hb⟩ := Bool.and_eq_true_iff.mp hab
  rw [decode3, Token.ofCell_encode ha, Token.ofCell_encode hb, Token.ofCell_encode hc]

/-- The operand cells of a well-formed instruction are read back as that instruction. -/
theorem decodeOperands_encode {i : Instr} (hi : i.wf = true) (rest : List Cell) :
    decodeOperands i.opcode (i.operands.map Token.encode ++ rest) = some (i, rest) := by
  cases i with
  | halt | ret | noop => rfl
  | push | pop | jmp | call | out | inp => exact decode1_encode hi _ rest
  | set | jt | jf | not | rmem | wmem => exact decode2_encode hi _ rest
  | eq | gt | add | mult | mod | and | or => exact decode3_encode hi _ rest

/-- Settles O1: the opcode cell is read back by `Opcode.ofCode?_code`, the operand cells by `decodeOperands_encode`. -/
theorem decodeEncodeRoundTrip : Obligations.DecodeEncodeRoundTrip := by
  intro i rest hi
  simp only [encode, List.cons_append, decode, Opcode.cell_toNat, Opcode.ofCode?_code, decodeOperands_encode hi rest]

/-! ## Decode, then encode -/

/-- The encoding of the tokens that cells are read as is those cells. -/
theorem map_encode_map_ofCell (cells : List Cell) : (cells.map Token.ofCell).map Token.encode = cells := by
  rw [List.map_map]
  exact List.map_id'' Token.encode_ofCell cells

/-- An instruction is well-formed when all its operand tokens are. -/
theorem Instr.wf_of_operands {i : Instr} (h : ∀ t ∈ i.operands, t.wf = true) : i.wf = true := by
  cases i <;> simp_all [Instr.wf, Instr.operands]

/-- The cells an opcode leaves unread are those after its operand cells. -/
theorem decodeOperands_rest {o : Opcode} {cells rest : List Cell} {i : Instr}
    (h : decodeOperands o cells = some (i, rest)) : rest = cells.drop o.forms.length := by
  cases o with
  | halt | ret | noop =>
    cases h
    rfl
  | push | pop | jmp | call | out | inp =>
    match cells with
    | [] => cases h
    | _ :: _ =>
      cases h
      rfl
  | set | jt | jf | not | rmem | wmem =>
    match cells with
    | [] | [_] => cases h
    | _ :: _ :: _ =>
      cases h
      rfl
  | eq | gt | add | mult | mod | and | or =>
    match cells with
    | [] | [_] | [_, _] => cases h
    | _ :: _ :: _ :: _ =>
      cases h
      rfl

theorem decodeOperands_opcode {o : Opcode} {cells rest : List Cell} {i : Instr}
    (h : decodeOperands o cells = some (i, rest)) : i.opcode = o := by
  obtain ⟨-, hnone⟩ | ⟨-, j, later, hsome, hj⟩ := decodeOperands_cases o cells
  · rw [hnone] at h
    cases h
  · rw [hsome] at h
    cases h
    exact hj

/-- What is decoded from an opcode cell and the cells after it comes from the opcode the cell numbers. -/
theorem decode_ok {cells rest : List Cell} {i : Instr} (h : decode cells = .ok (i, rest)) :
    ∃ tail, cells = i.opcode.cell :: tail ∧ decodeOperands i.opcode tail = some (i, rest) := by
  match cells with
  | [] => cases h
  | c :: tail =>
    rw [decode] at h
    cases ho : Opcode.ofCode? c.toNat with
    | none => simp [ho] at h
    | some o =>
      cases hd : decodeOperands o tail with
      | none => simp [ho, hd] at h
      | some r =>
        obtain rfl : r = (i, rest) := by simpa [ho, hd] using h
        obtain rfl := decodeOperands_opcode hd
        refine ⟨tail, ?_, hd⟩
        rw [BitVec.eq_of_toNat_eq ((Opcode.cell_toNat i.opcode).trans (Opcode.code_of_ofCode? ho))]

/-- Settles O2: the operands are the tokens of the cells after the opcode cell, by `decodeOperands_operands`, which are
well-formed and encode to those cells. -/
theorem encodeDecodeRoundTrip : Obligations.EncodeDecodeRoundTrip := by
  intro cells rest i h
  obtain ⟨tail, rfl, hd⟩ := decode_ok h
  have hops := decodeOperands_operands hd
  refine ⟨Instr.wf_of_operands ?wf, ?cells⟩
  case wf =>
    rw [hops]
    exact List.forall_mem_map.mpr fun c _ => Token.wf_ofCell c
  case cells =>
    rw [encode, hops, map_encode_map_ofCell, decodeOperands_rest hd, List.cons_append, List.take_append_drop]

/-! ## The opcode map, row by row (R66) -/

/-- Settles O4: each row is the equation of `decodeOperands` for its opcode. -/
theorem opcodeMapDecodes : Obligations.OpcodeMapDecodes := by
  intro a b c rest
  and_intros <;> rfl

/-- Settles O5: the decoder evaluated on each of the six sequences. -/
theorem sampleWordsDecode : Obligations.SampleWordsDecode :=
  ⟨rfl, rfl, rfl, rfl, rfl, rfl⟩

end Sys2Proof
end

section
/-! What each part of the state is written by, from the effects of an instruction (R23, R28 to R31), and the frames of the
instructions. -/

namespace Sys2Proof

theorem Instr.opcode_eq_wmem {i : Instr} : i.opcode = .wmem ↔ ∃ a b, i = .wmem a b := by
  cases i <;> simp [Instr.opcode]

theorem Instr.opcode_eq_out {i : Instr} : i.opcode = .out ↔ ∃ a, i = .out a := by
  cases i <;> simp [Instr.opcode]

theorem Instr.opcode_eq_inp {i : Instr} : i.opcode = .inp ↔ ∃ a, i = .inp a := by
  cases i <;> simp [Instr.opcode]

/-- An opcode in one list is in no list that has no opcode of the first. -/
theorem Opcode.not_mem_of_mem {l l' : List Opcode} {o : Opcode} (ho : o ∈ l) (hl : ∀ p ∈ l, p ∉ l') : o ∉ l' :=
  hl o ho

end Sys2Proof

namespace Sys2Proof.Machine

variable {i : Instr} {s s' : State}

/-! ## Which instruction may change which part of the state -/

theorem Effect.mem_eq (h : Effect s i s') (hi : i.opcode ≠ .wmem) : s'.mem = s.mem := by
  cases h with
  | store => exact absurd rfl hi
  | out => simp
  | _ => rfl

theorem Effect.stack_eq (h : Effect s i s') (hi : i.opcode ∉ [Opcode.push, .pop, .call, .ret]) : s'.stack = s.stack := by
  cases h with
  | push | pop | call | ret => simp [Instr.opcode] at hi
  | out => simp
  | _ => rfl

/-- The output side, which is the output buffer and the sink. -/
theorem Effect.output_eq (h : Effect s i s') (hi : i.opcode ≠ .out) : s'.outbuf = s.outbuf ∧ s'.sink = s.sink := by
  cases h with
  | out => exact absurd rfl hi
  | _ => exact ⟨rfl, rfl⟩

/-- The input side, which is the pending input and the source. -/
theorem Effect.input_eq (h : Effect s i s') (hi : i.opcode ≠ .inp) : s'.inbuf = s.inbuf ∧ s'.source = s.source := by
  cases h with
  | inPending | inLine => exact absurd rfl hi
  | out => simp
  | _ => exact ⟨rfl, rfl⟩

theorem Effect.params_eq (h : Effect s i s') : s'.params = s.params := by
  cases h with
  | out => simp
  | _ => rfl

/-- One of the ten writes the register operand A names. -/
theorem Writes.target {r : RegIx} {v : Cell} (h : Writes s i r v) :
    i.opcode ∈ [Opcode.set, .eq, .gt, .add, .mult, .mod, .and, .or, .not, .rmem] ∧
      i.operands.head? = some (.register r) := by
  cases h <;> exact ⟨by simp [Instr.opcode], rfl⟩

/-- The registers stay as they are, or the one operand A names is written, by an instruction with a destination. -/
theorem Effect.regs_cases (h : Effect s i s') : s'.regs = s.regs ∨
    ∃ r v, i.opcode ∈ [Opcode.set, .pop, .eq, .gt, .add, .mult, .mod, .and, .or, .not, .rmem, .inp] ∧
      i.operands.head? = some (.register r) ∧ s'.regs = s.regs.set r v := by
  cases h with
  | write _ r v hw =>
    obtain ⟨hop, ha⟩ := hw.target
    exact .inr ⟨r, v, List.subset_def.mp (by decide) hop, ha, rfl⟩
  | pop r v => exact .inr ⟨r, v, by simp [Instr.opcode], rfl, rfl⟩
  | inPending r c | inLine r c => exact .inr ⟨r, c, by simp [Instr.opcode], rfl, rfl⟩
  | out => exact .inl (by simp)
  | _ => exact .inl rfl

theorem Effect.regs_eq (h : Effect s i s')
    (hi : i.opcode ∉ [Opcode.set, .pop, .eq, .gt, .add, .mult, .mod, .and, .or, .not, .rmem, .inp]) :
    s'.regs = s.regs := by
  obtain hregs | ⟨r, v, hop, -⟩ := h.regs_cases
  · exact hregs
  · exact absurd hop hi

/-- A register that operand A does not name keeps its contents. -/
theorem Effect.regs_getElem_eq (h : Effect s i s') {q : RegIx} (hq : i.operands.head? ≠ some (.register q)) :
    s'.regs[q] = s.regs[q] := by
  obtain hregs | ⟨r, v, -, ha, hregs⟩ := h.regs_cases
  · rw [hregs]
  · have hne : (r : Nat) ≠ q := fun hrq => hq (Fin.ext hrq ▸ ha)
    rw [hregs]
    exact Vector.getElem_set_ne r.isLt q.isLt hne

/-- `running` and `error` stay as they are, except in a fault, in `halt`, and in a `ret` on an empty stack. -/
theorem Effect.running_cases (h : Effect s i s') : (∃ e, s' = s.raise e) ∨
    (i = .halt ∧ s'.running = false ∧ s'.error = s.error) ∨ (i = .ret ∧ s.stack = [] ∧ s' = s.halt) ∨
    (i ≠ .halt ∧ s'.running = s.running ∧ s'.error = s.error) := by
  cases h with
  | raise _ e => exact .inl ⟨e, rfl⟩
  | halt => exact .inr (.inl ⟨rfl, rfl, rfl⟩)
  | retHalt hs => exact .inr (.inr (.inl ⟨rfl, hs, rfl⟩))
  | write _ _ _ hw => exact .inr (.inr (.inr ⟨(by rintro rfl; nomatch hw), rfl, rfl⟩))
  | out => exact .inr (.inr (.inr ⟨nofun, by simp, by simp⟩))
  | _ => exact .inr (.inr (.inr ⟨nofun, rfl, rfl⟩))

/-- An instruction that cannot halt the core leaves `running` and `error` as they are, unless it takes a fault. -/
theorem Effect.running_eq_or_raise (h : Effect s i s') (hi : i.opcode ∉ [Opcode.halt, .ret]) :
    (s'.running = s.running ∧ s'.error = s.error) ∨ ∃ e, s' = s.raise e := by
  obtain hraise | ⟨rfl, -⟩ | ⟨rfl, -⟩ | ⟨-, hkept⟩ := h.running_cases
  · exact .inr hraise
  · simp [Instr.opcode] at hi
  · simp [Instr.opcode] at hi
  · exact .inl hkept

/-! ## The frames of the instructions -/

/-- Settles O33: none of the ten is among the writers of the parts it leaves unchanged. -/
theorem registerWriteFrame : Obligations.RegisterWriteFrame := by
  intro i s s' hop hexec
  have heff := exec_effect hexec
  have hmem := heff.mem_eq (ne_of_mem_of_not_mem hop (by decide))
  have hstack := heff.stack_eq (Opcode.not_mem_of_mem hop (by decide))
  obtain ⟨houtbuf, hsink⟩ := heff.output_eq (ne_of_mem_of_not_mem hop (by decide))
  obtain ⟨hinbuf, hsource⟩ := heff.input_eq (ne_of_mem_of_not_mem hop (by decide))
  have hrunning := heff.running_eq_or_raise (Opcode.not_mem_of_mem hop (by decide))
  exact ⟨fun q hq => heff.regs_getElem_eq hq, fun k => by rw [hmem], hmem, hstack, houtbuf, hinbuf, hsink, hsource,
    heff.params_eq, hrunning⟩

/-- The stack of `push` and `call` is as it was or has one entry more. -/
theorem Effect.stack_grows (h : Effect s i s') (hi : i.opcode ∈ [Opcode.push, .call]) :
    s'.stack = s.stack ∨ ∃ v, s'.stack = s.stack ++ [v] := by
  cases h with
  | raise => exact .inl rfl
  | push _ v | call _ v => exact .inr ⟨_, rfl⟩
  | write _ _ _ hw => exact absurd hi (Opcode.not_mem_of_mem hw.target.1 (by decide))
  | _ => simp [Instr.opcode] at hi

/-- The stack of `pop` and `ret` is as it was or has lost its top. -/
theorem Effect.stack_shrinks (h : Effect s i s') (hi : i.opcode ∈ [Opcode.pop, .ret]) :
    s'.stack = s.stack ∨ ∃ v, s.stack = s'.stack ++ [v] := by
  cases h with
  | raise | retHalt => exact .inl rfl
  | pop _ v hv | ret v hv => exact .inr ⟨v, (List.dropLast_append_getLast? v hv).symm⟩
  | write _ _ _ hw => exact absurd hi (Opcode.not_mem_of_mem hw.target.1 (by decide))
  | _ => simp [Instr.opcode] at hi

/-- Settles O34: the four write the stack, at its top, and `pop` its destination. -/
theorem stackFrame : Obligations.StackFrame := by
  intro i s s' hop hexec
  have heff := exec_effect hexec
  have hmem := heff.mem_eq (ne_of_mem_of_not_mem hop (by decide))
  obtain ⟨houtbuf, hsink⟩ := heff.output_eq (ne_of_mem_of_not_mem hop (by decide))
  obtain ⟨hinbuf, hsource⟩ := heff.input_eq (ne_of_mem_of_not_mem hop (by decide))
  refine ⟨fun k => by rw [hmem], hmem, houtbuf, hinbuf, hsink, hsource, heff.params_eq, ?regs, heff.stack_grows,
    heff.stack_shrinks, ?running⟩
  case regs =>
    intro q hq
    cases i with
    | pop a => exact heff.regs_getElem_eq fun ha => hq (congrArg Instr.pop (Option.some.inj ha))
    | push | call | ret => rw [heff.regs_eq (by simp [Instr.opcode])]
    | _ => simp [Instr.opcode] at hop
  case running =>
    obtain hraise | ⟨rfl, -⟩ | hret | ⟨-, hkept⟩ := heff.running_cases
    · exact .inr (.inl hraise)
    · simp [Instr.opcode] at hop
    · exact .inr (.inr hret)
    · exact .inl hkept

/-- Settles O35: the five write nothing but the pc, `running` and `error`. -/
theorem controlFrame : Obligations.ControlFrame := by
  intro i s s' hop hexec
  have heff := exec_effect hexec
  have hmem := heff.mem_eq (ne_of_mem_of_not_mem hop (by decide))
  have hregs := heff.regs_eq (Opcode.not_mem_of_mem hop (by decide))
  have hstack := heff.stack_eq (Opcode.not_mem_of_mem hop (by decide))
  obtain ⟨houtbuf, hsink⟩ := heff.output_eq (ne_of_mem_of_not_mem hop (by decide))
  obtain ⟨hinbuf, hsource⟩ := heff.input_eq (ne_of_mem_of_not_mem hop (by decide))
  refine ⟨?record, fun k => by rw [hmem], fun q => by rw [hregs], ?running⟩
  case record => rw [← hmem, ← hregs, ← hstack, ← houtbuf, ← hsink, ← hinbuf, ← hsource, ← heff.params_eq]
  case running =>
    obtain hraise | ⟨rfl, hrun, herr⟩ | ⟨rfl, -⟩ | ⟨hi, hrun, herr⟩ := heff.running_cases
    · exact .inr hraise
    · exact .inl ⟨herr, by simp [hrun]⟩
    · simp [Instr.opcode] at hop
    · exact .inl ⟨herr, by simp [hrun, hi]⟩

/-- Settles O36: `wmem` writes nothing but memory, in the one cell of `exec_wmem_next`. -/
theorem storeFrame : Obligations.StoreFrame := by
  intro a b s s' hexec
  have heff := exec_effect hexec
  obtain ⟨houtbuf, hsink⟩ := heff.output_eq nofun
  obtain ⟨hinbuf, hsource⟩ := heff.input_eq nofun
  refine ⟨?cells, heff.regs_eq (by simp [Instr.opcode]), heff.stack_eq (by simp [Instr.opcode]), houtbuf, hinbuf, hsink,
    hsource, heff.params_eq, heff.running_eq_or_raise (by simp [Instr.opcode])⟩
  case cells =>
    intro k hk
    obtain ⟨e, rfl⟩ | ⟨x, y, ha, hb, hx, rfl⟩ := exec_wmem_next hexec
    · rfl
    · exact Memory.read_write_other s.mem x.toNat k y (hk x y ha hb (Nat.le_of_lt_succ hx))

/-- Settles O37: `out` writes the output side only, `in` the input side and its destination only. -/
theorem ioFrame : Obligations.IoFrame := by
  intro a s s' hexec
  obtain ⟨i, hi, heff⟩ : ∃ i, (i = .out a ∨ i = .inp a) ∧ Effect s i s' := by
    obtain h | h := hexec
    · exact ⟨_, .inl rfl, exec_effect h⟩
    · exact ⟨_, .inr rfl, exec_effect h⟩
  have hop : i.opcode ∈ [Opcode.out, .inp] := by obtain rfl | rfl := hi <;> simp [Instr.opcode]
  have hmem := heff.mem_eq (ne_of_mem_of_not_mem hop (by decide))
  refine ⟨fun k => by rw [hmem], hmem, heff.stack_eq (Opcode.not_mem_of_mem hop (by decide)), heff.params_eq, ?out, ?inp,
    heff.running_eq_or_raise (Opcode.not_mem_of_mem hop (by decide))⟩
  case out =>
    intro hout
    have heff := exec_effect hout
    exact ⟨heff.regs_eq (by simp [Instr.opcode]), heff.input_eq nofun⟩
  case inp =>
    intro hinp
    have heff := exec_effect hinp
    obtain ⟨houtbuf, hsink⟩ := heff.output_eq nofun
    exact ⟨houtbuf, hsink, fun q hq => heff.regs_getElem_eq fun ha => hq (Option.some.inj ha)⟩

/-! ## The same, of a step -/

/-- A step takes a fault or has an effect of the instruction fetched. -/
theorem step_effect (h : step s = .next s') : (∃ e, s' = s.raise e) ∨ ∃ i, s.fetch = .ok i ∧ Effect s i s' := by
  obtain ⟨-, ⟨i, hfetch, hexec⟩ | ⟨e, -, hraise⟩⟩ := step_next h
  · exact .inr ⟨i, hfetch, exec_effect hexec⟩
  · exact .inl ⟨e, hraise⟩

/-- The step of a running core that fetches an instruction is that instruction's. -/
theorem step_of_fetch_ok (hrun : s.running = true) (hf : s.fetch = .ok i) : step s = exec i s := by
  simp only [step, hrun, hf, if_true]

/-- A step that answers a next state ran the instruction fetched. -/
theorem exec_of_step (hf : s.fetch = .ok i) (hstep : step s = .next s') :
    exec i s = .next s' := by
  obtain ⟨hrun, -⟩ := step_next hstep
  rwa [← step_of_fetch_ok hrun hf]

/-- Settles O42: a fetch fault is a fault entry; the effects of an instruction that leave `running` false are those of
`Effect.running_cases`, since `running` was true. -/
theorem runningLeftOnlyThreeWays : Obligations.RunningLeftOnlyThreeWays := by
  refine ⟨fun s hhalted => by simp [step, hhalted], ?_⟩
  intro s s' hstep hhalted
  obtain ⟨hrun, -⟩ := step_next hstep
  obtain hraise | ⟨i, hfetch, heff⟩ := step_effect hstep
  · exact .inl hraise
  · obtain hraise | ⟨rfl, -, herr⟩ | ⟨rfl, hs, rfl⟩ | ⟨-, hkept, -⟩ := heff.running_cases
    · exact .inl hraise
    · exact .inr (.inl ⟨hfetch, herr⟩)
    · exact .inr (.inr ⟨hfetch, hs, rfl⟩)
    · rw [hkept, hrun] at hhalted
      cases hhalted

/-- Settles O45: fault entry changes none of these parts, and each part is kept by every effect of an instruction that is
not one of its writers. -/
theorem writersOfEachState : Obligations.WritersOfEachState := by
  intro s s' hstep
  obtain ⟨e, rfl⟩ | ⟨i, hfetch, heff⟩ := step_effect hstep
  · simp
  refine ⟨fun hne => ?regs, fun hne => ?mem, fun hne => ?stack, fun hne => ?output, fun hne => ?input, heff.params_eq⟩
  case regs => exact ⟨i, hfetch, Decidable.of_not_not fun hi => hne (heff.regs_eq hi)⟩
  case mem =>
    obtain ⟨a, b, rfl⟩ := Instr.opcode_eq_wmem.mp (Decidable.of_not_not fun hi => hne (heff.mem_eq hi))
    exact ⟨a, b, hfetch⟩
  case stack => exact ⟨i, hfetch, Decidable.of_not_not fun hi => hne (heff.stack_eq hi)⟩
  case output =>
    obtain ⟨a, rfl⟩ := Instr.opcode_eq_out.mp (Decidable.of_not_not fun hi =>
      hne.elim (absurd (heff.output_eq hi).1) (absurd (heff.output_eq hi).2))
    exact ⟨a, hfetch⟩
  case input =>
    obtain ⟨a, rfl⟩ := Instr.opcode_eq_inp.mp (Decidable.of_not_not fun hi =>
      hne.elim (absurd (heff.input_eq hi).1) (absurd (heff.input_eq hi).2))
    exact ⟨a, hfetch⟩

/-- Settles O52: of the effects only `inLine` changes the source, and it takes the source's next line. -/
theorem lineTakenOnlyWhenNeeded : Obligations.LineTakenOnlyWhenNeeded := by
  intro s s' hstep hne
  obtain ⟨hrun, -⟩ := step_next hstep
  obtain ⟨e, rfl⟩ | ⟨i, hfetch, heff⟩ := step_effect hstep
  · exact absurd rfl hne
  cases heff with
  | inLine r c rest later hin hsource => exact ⟨by simp [State.lineRequested, hrun, hin, hfetch], c, rest, hsource, rfl⟩
  | out => simp at hne
  | _ => exact absurd rfl hne

/-- Settles O53: of the effects only `out` changes the sink, and of the characters emitted only the newline. -/
theorem sinkGetsEachLineOnce : Obligations.SinkGetsEachLineOnce := by
  intro s s' hstep hne
  obtain ⟨e, rfl⟩ | ⟨i, hfetch, heff⟩ := step_effect hstep
  · exact absurd rfl hne
  cases heff with
  | out a x ha =>
    by_cases hx : x = Config.newline
    · subst hx
      exact ⟨rfl, rfl, a, hfetch, ha⟩
    · rw [State.emit_char s x hx] at hne
      exact absurd rfl hne
  | _ => exact absurd rfl hne

end Sys2Proof.Machine
end

section
/-! The I/O bridge, `out` and `in` (R150 to R158). -/

namespace Sys2Proof.Machine

/-! ## `out` (R150, R152) -/

/-- `out` emits the value of A where the output buffer has room. -/
theorem exec_out (a : Token) (s : State) : exec (.out a) s = withValue a s fun x =>
    if s.outbufRoom x then .next ((s.emit x).advance 2) else .refused .outbufDepthExceeded := rfl

/-- The newline always finds room. -/
theorem State.outbufRoom_newline (s : State) : s.outbufRoom Config.newline = true := rfl

/-- Any other character finds room exactly when a depth, if there is one, is not yet reached. -/
theorem State.outbufRoom_char_iff {s : State} {c : Cell} (hc : c ≠ Config.newline) :
    s.outbufRoom c = true ↔ ∀ d, s.params.outbufDepth = some d → s.outbuf.length < d := by
  rw [State.outbufRoom, decide_eq_false hc, Bool.false_or, fits_succ_iff]

/-- Settles O29: after its operand `out` asks only for room, and its two answers are the two of `emit`. -/
theorem outRule : Obligations.OutRule := by
  intro a s
  refine ⟨rfl, ?noValue, fun x ha => ⟨?newline, ?char⟩⟩
  case noValue =>
    intro e ha
    refine ⟨resolveValue_error ha, ?_⟩
    rw [exec_out, withValue_error ha, fault_eq, State.raise]
  case newline =>
    rintro rfl
    rw [exec_out, withValue_ok ha, if_pos s.outbufRoom_newline, State.emit_newline, State.advance]
  case char =>
    intro hx hroom
    rw [exec_out, withValue_ok ha, if_pos ((State.outbufRoom_char_iff hx).mpr hroom), State.emit_char s x hx, State.advance]

/-! ## `in` (R151, R154, R155) -/

/-- A pending character is the next one. -/
theorem State.nextInputChar_pending {s : State} {c : Cell} {rest : List Cell} (hin : s.inbuf = c :: rest) :
    s.nextInputChar = .char c { s with inbuf := rest } := by
  simp only [State.nextInputChar, hin]

/-- With none pending the next one is the first of the source's next line. -/
theorem State.nextInputChar_line {s : State} {c : Cell} {rest : List Cell} {later : List (List Cell)} (hin : s.inbuf = [])
    (hsource : s.source = (c :: rest) :: later) (hfits : fits s.params.inbufDepth (rest.length + 1) = true) :
    s.nextInputChar = .char c { s with inbuf := rest, source := later } := by
  simp only [State.nextInputChar, hin, hsource, hfits, if_true]

theorem State.nextInputChar_tooLong {s : State} {c : Cell} {rest : List Cell} {later : List (List Cell)} (hin : s.inbuf = [])
    (hsource : s.source = (c :: rest) :: later) (hlong : ¬ fits s.params.inbufDepth (rest.length + 1) = true) :
    s.nextInputChar = .tooLong := by
  simp only [State.nextInputChar, hin, hsource, if_neg hlong]

/-- A source without a line, or with an empty one next, gives no character. -/
theorem State.nextInputChar_wait {s : State} (hin : s.inbuf = [])
    (hsource : s.source = [] ∨ ∃ later, s.source = [] :: later) : s.nextInputChar = .wait := by
  obtain hsource | ⟨later, hsource⟩ := hsource
  · simp only [State.nextInputChar, hin, hsource]
  · simp only [State.nextInputChar, hin, hsource]

theorem exec_inp_error {a : Token} {e : Cause} (ha : resolveTarget a = .error e) (s : State) :
    exec (.inp a) s = fault e s :=
  withTarget_error s ha _

theorem exec_inp_char {a : Token} {r : RegIx} {s t : State} {c : Cell} (ha : resolveTarget a = .ok r)
    (hc : s.nextInputChar = .char c t) : exec (.inp a) s = .next ((t.setReg r c).advance 2) := by
  rw [exec, execInp, withTarget_ok s ha, hc]

theorem exec_inp_wait {a : Token} {r : RegIx} {s : State} (ha : resolveTarget a = .ok r) (hw : s.nextInputChar = .wait) :
    exec (.inp a) s = .next s := by
  rw [exec, execInp, withTarget_ok s ha, hw]

theorem exec_inp_tooLong {a : Token} {r : RegIx} {s : State} (ha : resolveTarget a = .ok r)
    (hl : s.nextInputChar = .tooLong) : exec (.inp a) s = .refused .inbufDepthExceeded := by
  rw [exec, execInp, withTarget_ok s ha, hl]

/-- A line fits exactly when a depth, if there is one, is no less than its length. -/
theorem fits_iff {depth : Option Nat} {n : Nat} : fits depth n = true ↔ ∀ d, depth = some d → n ≤ d := by
  cases depth with
  | none => simp [fits]
  | some d => simp [fits]

/-- Settles O30: the destination is checked first; then the character is one pending or the first of the next line. -/
theorem inRule : Obligations.InRule := by
  intro a s
  refine ⟨rfl, ?noTarget, fun r ha => ⟨?pending, ?line⟩⟩
  case noTarget =>
    intro e ha
    refine ⟨resolveTarget_error ha, ?_⟩
    rw [exec_inp_error ha, fault_eq, State.raise]
  case pending =>
    intro c rest hin
    rw [exec_inp_char ha (State.nextInputChar_pending hin), State.setReg, State.advance]
  case line =>
    intro c rest later hin hsource hfits
    rw [exec_inp_char ha (State.nextInputChar_line hin hsource (fits_iff.mpr hfits)), State.setReg, State.advance]

/-- Settles O31: both forms of the source are those of `State.nextInputChar_wait`. -/
theorem inWaitsUnchanged : Obligations.InWaitsUnchanged := by
  intro a r s later ha hin hsource
  exact exec_inp_wait ha (State.nextInputChar_wait hin (hsource.imp_right fun h => ⟨later, h⟩))

/-! ## A line buffer of FINITE depth that is too short (R11, U13) -/

/-- Settles O32: a full output buffer has no room, and a line longer than the input depth does not fit. -/
theorem finiteLineBufferRefused : Obligations.FiniteLineBufferRefused := by
  refine ⟨?out, ?inp⟩
  case out =>
    intro a s x d ha hx hd hfull
    have hroom : ¬ s.outbufRoom x = true := fun h =>
      Nat.not_lt.mpr hfull ((State.outbufRoom_char_iff hx).mp h d hd)
    rw [exec_out, withValue_ok ha, if_neg hroom]
  case inp =>
    intro a s r d c rest later ha hin hsource hd hlong
    have hfits : ¬ fits s.params.inbufDepth (rest.length + 1) = true := fun h =>
      Nat.not_le.mpr hlong (fits_iff.mp h d hd)
    exact exec_inp_tooLong ha (State.nextInputChar_tooLong hin hsource hfits)

end Sys2Proof.Machine
end

section
/-! The machine invariant (R10, R11, R27, R30, R156), at reset, after a load and kept by every step. -/

namespace Sys2Proof.Machine

/-! ## The invariant by its parts -/

/-- The machine invariant, one field for each of its parts. -/
structure State.Inv (s : State) : Prop where
  memWf : s.mem.wf = true
  latch : s.error = none ∨ s.running = false
  outbufLine : Config.newline ∉ s.outbuf
  sinkLines : ∀ line ∈ s.sink, Config.newline ∉ line
  stackFits : fits s.params.stackDepth s.stack.length = true
  outbufFits : fits s.params.outbufDepth s.outbuf.length = true
  inbufFits : fits s.params.inbufDepth s.inbuf.length = true

theorem State.inv_iff {s : State} : s.inv = true ↔ s.Inv := by
  simp only [State.inv, Bool.and_eq_true, Bool.or_eq_true, Bool.not_eq_true', Option.isNone_iff_eq_none, List.all_eq_true,
    List.contains_eq_mem, decide_eq_false_iff_not]
  constructor
  · rintro ⟨⟨⟨⟨⟨⟨hmem, hlatch⟩, hout⟩, hsink⟩, hstack⟩, houtFits⟩, hinFits⟩
    exact ⟨hmem, hlatch, hout, hsink, hstack, houtFits, hinFits⟩
  · rintro ⟨hmem, hlatch, hout, hsink, hstack, houtFits, hinFits⟩
    exact ⟨⟨⟨⟨⟨⟨hmem, hlatch⟩, hout⟩, hsink⟩, hstack⟩, houtFits⟩, hinFits⟩

/-- A running core of the invariant has no latched fault. -/
theorem State.Inv.error_eq_none {s : State} (h : s.Inv) (hrun : s.running = true) : s.error = none :=
  h.latch.resolve_right (by simp [hrun])

/-- A buffer that holds a number of entries holds any smaller number. -/
theorem fits_mono {depth : Option Nat} {m n : Nat} (hmn : m ≤ n) (h : fits depth n = true) : fits depth m = true := by
  cases depth with
  | none => rfl
  | some d => exact decide_eq_true (hmn.trans (of_decide_eq_true h))

/-! ## Each effect keeps it -/

theorem State.Inv.raise {s : State} (h : s.Inv) (e : Cause) : (s.raise e).Inv := { h with latch := .inr rfl }

theorem State.Inv.halt {s : State} (h : s.Inv) : s.halt.Inv := { h with latch := .inr rfl }

theorem State.Inv.advance {s : State} (h : s.Inv) (n : Nat) : (s.advance n).Inv := { h with }

theorem State.Inv.setPc {s : State} (h : s.Inv) (t : Cell) : (s.setPc t).Inv := { h with }

theorem State.Inv.setReg {s : State} (h : s.Inv) (r : RegIx) (v : Cell) : (s.setReg r v).Inv := { h with }

theorem State.Inv.push {s : State} (h : s.Inv) (hroom : s.stackRoom = true) (v : Cell) : (s.push v).Inv :=
  { h with stackFits := by rw [State.push_stack, List.length_append]; exact hroom }

theorem State.Inv.dropTop {s : State} (h : s.Inv) : s.dropTop.Inv :=
  { h with stackFits := fits_mono (by simp) h.stackFits }

theorem State.Inv.store {s : State} (h : s.Inv) {a : Nat} (ha : a < 32768) (v : Cell) :
    State.Inv { s with mem := s.mem.write a v } :=
  { h with memWf := Memory.wf_write h.memWf ha v }

/-- The newline hands a line without newlines to the sink; any other character finds room in the buffer. -/
theorem State.Inv.emit {s : State} (h : s.Inv) {c : Cell} (hroom : s.outbufRoom c = true) : (s.emit c).Inv := by
  by_cases hc : c = Config.newline
  · subst hc
    rw [State.emit_newline]
    exact { h with
      outbufLine := List.not_mem_nil
      sinkLines := List.forall_mem_append.mpr ⟨h.sinkLines, List.forall_mem_singleton.mpr h.outbufLine⟩
      outbufFits := fits_mono (Nat.zero_le _) h.outbufFits }
  · rw [State.emit_char s c hc]
    have hfits : fits s.params.outbufDepth (s.outbuf.length + 1) = true := by simpa [State.outbufRoom, hc] using hroom
    exact { h with
      outbufLine := by simp [h.outbufLine, Ne.symm hc]
      outbufFits := by simpa using hfits }

/-- Pending input no longer than its depth allows. -/
theorem State.Inv.input {s : State} (h : s.Inv) {rest : List Cell} (hfits : fits s.params.inbufDepth rest.length = true)
    (later : List (List Cell)) : State.Inv { s with inbuf := rest, source := later } :=
  { h with inbufFits := hfits }

theorem Effect.keeps_inv {i : Instr} {s s' : State} (heff : Effect s i s') (h : s.Inv) : s'.Inv := by
  cases heff with
  | raise _ e => exact h.raise e
  | halt => exact h.halt.advance 1
  | noop => exact h.advance 1
  | write _ r v => exact (h.setReg r v).advance _
  | push _ x _ hroom => exact (h.push hroom x).advance 2
  | pop r v => exact (h.dropTop.setReg r v).advance 2
  | jmp _ x => exact h.setPc x
  | jtTaken _ _ _ y | jfTaken _ _ y => exact h.setPc y
  | jtNot | jfNot => exact h.advance 3
  | call _ x _ hroom => exact (h.push hroom _).setPc x
  | ret v => exact h.dropTop.setPc v
  | retHalt => exact h.halt
  | store _ _ _ y _ _ hx => exact (h.store hx y).advance 3
  | out _ x _ hroom => exact (h.emit hroom).advance 2
  | wait => exact h
  | inPending r c rest hin =>
    have hfits := fits_mono (Nat.le_succ rest.length) (by simpa [hin] using h.inbufFits)
    exact ((h.input hfits s.source).setReg r c).advance 2
  | inLine r c rest later _ _ hline =>
    exact ((h.input (fits_mono (Nat.le_succ rest.length) hline) later).setReg r c).advance 2

/-- Settles O48: fault entry and every effect of an instruction keep each part of the invariant. -/
theorem stepKeepsInvariant : Obligations.StepKeepsInvariant := by
  intro s s' hinv hstep
  have h := State.inv_iff.mp hinv
  refine State.inv_iff.mpr ?_
  obtain ⟨e, rfl⟩ | ⟨i, -, heff⟩ := step_effect hstep
  · exact h.raise e
  · exact heff.keeps_inv h

end Sys2Proof.Machine
end

section
/-! The Word range (R21): kept by a step except in three cases. -/

namespace Sys2Proof.Machine

/-! ## The range by its parts -/

/-- The range invariant, one field for each place a value can be. -/
structure State.WordRange (s : State) : Prop where
  regs : ∀ r : RegIx, (s.getReg r).toNat ≤ 32767
  stack : ∀ v ∈ s.stack, v.toNat ≤ 32767
  mem : ∀ p ∈ s.mem, p.2.toNat ≤ 32775

theorem State.wordInv_iff {s : State} : s.wordInv = true ↔ s.WordRange := by
  have hregs : s.regs.toList.all Cell.isWord = true ↔ ∀ r : RegIx, (s.getReg r).toNat ≤ 32767 := by
    simp only [List.all_eq_true, Vector.mem_toList_iff, Cell.isWord, decide_eq_true_eq]
    constructor
    · exact fun h r => h _ (Vector.getElem_mem r.isLt)
    · intro h v hv
      obtain ⟨k, hk, rfl⟩ := Vector.mem_iff_getElem.mp hv
      exact h ⟨k, hk⟩
  simp only [State.wordInv, Bool.and_eq_true, hregs, List.all_eq_true, Cell.isWord, decide_eq_true_eq]
  constructor
  · rintro ⟨⟨hregs, hstack⟩, hmem⟩
    exact ⟨hregs, hstack, hmem⟩
  · rintro ⟨hregs, hstack, hmem⟩
    exact ⟨⟨hregs, hstack⟩, hmem⟩

/-- A value operand is a Word: a literal has 15 bits. -/
theorem State.WordRange.resolveValue_le {s : State} (h : s.WordRange) {t : Token} {v : Cell}
    (hv : resolveValue s t = .ok v) : v.toNat ≤ 32767 := by
  cases t with
  | literal l =>
    cases hv
    have hl := l.isLt
    rw [BitVec.toNat_setWidth]
    omega
  | register r =>
    cases hv
    exact h.regs r
  | invalid => cases hv

theorem State.WordRange.top_le {s : State} (h : s.WordRange) {v : Cell} (hv : s.stack.getLast? = some v) :
    v.toNat ≤ 32767 :=
  h.stack v (List.mem_of_getLast? hv)

/-! ## What writes keep the range -/

theorem State.WordRange.setReg {s : State} (h : s.WordRange) (r : RegIx) {v : Cell} (hv : v.toNat ≤ 32767) :
    (s.setReg r v).WordRange where
  regs q := by
    by_cases hq : q = r
    · rw [hq, State.getReg_setReg_same]
      exact hv
    · rw [State.getReg_setReg_other s r q v hq]
      exact h.regs q
  stack := h.stack
  mem := h.mem

theorem State.WordRange.push {s : State} (h : s.WordRange) {v : Cell} (hv : v.toNat ≤ 32767) : (s.push v).WordRange :=
  { h with stack := List.forall_mem_append.mpr ⟨h.stack, List.forall_mem_singleton.mpr hv⟩ }

theorem State.WordRange.dropTop {s : State} (h : s.WordRange) : s.dropTop.WordRange :=
  { h with stack := fun v hv => h.stack v (List.mem_of_mem_dropLast hv) }

theorem State.WordRange.emit {s : State} (h : s.WordRange) (c : Cell) : (s.emit c).WordRange := by
  by_cases hc : c = Config.newline
  · subst hc
    exact { h with }
  · rw [State.emit_char s c hc]
    exact { h with }

/-- An entry of a written memory is the one written or was there before. -/
theorem Memory.mem_write {m : Memory} {a : Nat} {v : Cell} {p : Nat × Cell} (hp : p ∈ m.write a v) :
    p = (a, v) ∨ p ∈ m := by
  induction m with
  | nil =>
    rw [Memory.write] at hp
    split at hp
    · exact .inr hp
    · exact .inl (List.mem_singleton.mp hp)
  | cons q m ih =>
    obtain ⟨k, w⟩ := q
    rw [Memory.write] at hp
    split at hp
    · split at hp
      · exact .inr hp
      · exact List.mem_cons.mp hp
    · split at hp
      · split at hp
        · exact .inr (List.mem_cons_of_mem _ hp)
        · exact (List.mem_cons.mp hp).imp_right (List.mem_cons_of_mem _)
      · obtain rfl | hp := List.mem_cons.mp hp
        · exact .inr (List.mem_cons_self ..)
        · exact (ih hp).imp_right (List.mem_cons_of_mem _)

theorem State.WordRange.store {s : State} (h : s.WordRange) (a : Nat) {v : Cell} (hv : v.toNat ≤ 32767) :
    State.WordRange { s with mem := s.mem.write a v } :=
  { h with
    mem := fun p hp => by
      obtain rfl | hp := Memory.mem_write hp
      · exact hv.trans (by decide)
      · exact h.mem p hp }

/-- The ten that write a register write a Word, except `rmem` of a wide cell. -/
theorem Writes.value_le {s : State} {i : Instr} {r : RegIx} {v : Cell} (hw : Writes s i r v) (h : s.WordRange)
    (hrmem : ∀ b x, i = .rmem (.register r) b → resolveValue s b = .ok x → x.toNat < 32768 →
      (s.mem.read x.toNat).toNat ≤ 32767) : v.toNat ≤ 32767 := by
  cases hw with
  | set _ b _ hb => exact h.resolveValue_le hb
  | eq | gt =>
    rw [flagCell]
    split <;> decide
  | add _ _ _ x y =>
    rw [addCells_toNat]
    omega
  | mult _ _ _ x y =>
    rw [multCells_toNat]
    omega
  | mod _ _ _ x y hx =>
    rw [modCells_toNat]
    exact (Nat.mod_le _ _).trans (h.resolveValue_le hx)
  | and _ _ _ x y hx =>
    rw [BitVec.toNat_and]
    exact Nat.and_le_left.trans (h.resolveValue_le hx)
  | or _ _ _ x y hx hy =>
    have hlt : x.toNat ||| y.toNat < 2 ^ 15 :=
      Nat.or_lt_two_pow (Nat.lt_succ_of_le (h.resolveValue_le hx)) (Nat.lt_succ_of_le (h.resolveValue_le hy))
    rw [BitVec.toNat_or]
    exact Nat.le_of_lt_succ hlt
  | not _ _ x =>
    rw [notCell_toNat]
    exact Nat.sub_le _ _
  | rmem _ b x hb hx => exact hrmem b x rfl hb hx

/-! ## The three cases -/

/-- The cells of a fetched instruction lie inside Memory (R94). -/
theorem State.fetch_ok_inside {s : State} {i : Instr} (hf : s.fetch = .ok i) : s.pc.toNat + i.opcode.length ≤ 32768 := by
  by_cases hpc : 32767 < s.pc.toNat
  · rw [State.fetch_of_pc_beyond hpc] at hf
    cases hf
  have hpc := Nat.not_lt.mp hpc
  obtain ⟨rest, hcells, hlen⟩ := State.fetchCells_of_pc_inside hpc
  obtain ⟨later, hdecode, -⟩ := State.fetch_ok hf
  rw [hcells] at hdecode
  obtain ⟨tail, htail, hops⟩ := decode_ok hdecode
  obtain ⟨-, rfl⟩ := List.cons.inj htail
  obtain ⟨-, hnone⟩ | ⟨hforms, -⟩ := decodeOperands_cases i.opcode rest
  · rw [hnone] at hops
    cases hops
  · rw [Opcode.length]
    omega

/-- `rmem` of a wide cell. -/
def State.RmemWide (s : State) : Prop :=
  ∃ r b x, s.fetch = .ok (.rmem (.register r) b) ∧ resolveValue s b = .ok x ∧ x.toNat < 32768 ∧
    32767 < (s.mem.read x.toNat).toNat

/-- `call` at pc 32766. -/
def State.CallAtEnd (s : State) : Prop :=
  ∃ a x, s.fetch = .ok (.call a) ∧ resolveValue s a = .ok x ∧ s.stackRoom = true ∧ s.pc = 32766#16

/-- `in` of a wide code. -/
def State.InWide (s : State) : Prop :=
  ∃ r c t, s.fetch = .ok (.inp (.register r)) ∧ s.nextInputChar = .char c t ∧ 32767 < c.toNat

theorem State.widens_iff {s : State} : s.widens = true ↔ s.RmemWide ∨ s.CallAtEnd ∨ s.InWide := by
  constructor
  · intro h
    unfold State.widens at h
    split at h
    · next r b hf =>
      split at h
      · next x hx =>
        obtain ⟨hle, hwide⟩ := Bool.and_eq_true_iff.mp h
        exact .inl ⟨r, b, x, hf, hx, Nat.lt_succ_of_le (of_decide_eq_true hle), of_decide_eq_true hwide⟩
      · cases h
    · next a hf =>
      split at h
      · next x hx =>
        obtain ⟨hroom, hpc⟩ := Bool.and_eq_true_iff.mp h
        exact .inr (.inl ⟨a, x, hf, hx, hroom, of_decide_eq_true hpc⟩)
      · cases h
    · next r hf =>
      split at h
      · next c t hc => exact .inr (.inr ⟨r, c, t, hf, hc, of_decide_eq_true h⟩)
      · cases h
      · cases h
    · cases h
  · rintro (⟨r, b, x, hf, hx, hlt, hwide⟩ | ⟨a, x, hf, hx, hroom, hpc⟩ | ⟨r, c, t, hf, hc, hwide⟩)
    · simp [State.widens, hf, hx, Nat.le_of_lt_succ hlt, hwide]
    · simp [State.widens, hf, hx, hroom, hpc]
    · simp [State.widens, hf, hc, hwide]

/-- In each of the three cases a value above the range is written. -/
theorem State.not_wordRange_of_widens {s s' : State} (hw : s.widens = true) (hstep : step s = .next s') :
    ¬ s'.WordRange := by
  intro h'
  obtain ⟨r, b, x, hf, hx, hlt, hwide⟩ | ⟨a, x, hf, hx, hroom, hpc⟩ | ⟨r, c, t, hf, hc, hwide⟩ := State.widens_iff.mp hw
  · have hexec := exec_of_step hf hstep
    rw [exec_rmem_inside rfl hx hlt] at hexec
    cases hexec
    have hle : ((s.setReg r _).getReg r).toNat ≤ 32767 := h'.regs r
    rw [State.getReg_setReg_same] at hle
    omega
  · have hexec := exec_of_step hf hstep
    rw [exec_call, withValue_ok hx, if_pos hroom] at hexec
    cases hexec
    have hle := h'.stack (s.pc + 2#16) (by simp)
    rw [hpc] at hle
    exact absurd hle (by decide)
  · have hexec := exec_of_step hf hstep
    rw [exec_inp_char rfl hc] at hexec
    cases hexec
    have hle : ((t.setReg r c).getReg r).toNat ≤ 32767 := h'.regs r
    rw [State.getReg_setReg_same] at hle
    omega

/-- Outside the three cases every effect of the instruction fetched keeps the range. -/
theorem Effect.keeps_wordRange {i : Instr} {s s' : State} (heff : Effect s i s') (hf : s.fetch = .ok i) (h : s.WordRange)
    (hnot : ¬(s.RmemWide ∨ s.CallAtEnd ∨ s.InWide)) : s'.WordRange := by
  obtain ⟨hrmem, hcall, hinp⟩ : ¬ s.RmemWide ∧ ¬ s.CallAtEnd ∧ ¬ s.InWide := by tauto
  cases heff with
  | write _ r v hw =>
    refine { h.setReg r (hw.value_le h fun b x hi hb hx => ?_) with }
    exact Nat.not_lt.mp fun hwide => hrmem ⟨r, b, x, hi ▸ hf, hb, hx, hwide⟩
  | push _ x hx => exact { h.push (h.resolveValue_le hx) with }
  | pop r v hv => exact { h.dropTop.setReg r (h.top_le hv) with }
  | call a x hx hroom =>
    have hinside : s.pc.toNat + 2 ≤ 32768 := State.fetch_ok_inside hf
    have hpc : s.pc.toNat ≠ 32766 := fun hpc => hcall ⟨a, x, hf, hx, hroom, BitVec.eq_of_toNat_eq hpc⟩
    have hle : (s.pc + 2#16).toNat ≤ 32767 := by
      rw [BitVec.toNat_add, BitVec.toNat_ofNat]
      omega
    exact { h.push hle with }
  | ret v hv => exact { h.dropTop with }
  | store _ _ x y _ hy => exact { h.store x.toNat (h.resolveValue_le hy) with }
  | inPending r c rest hin =>
    have hle := Nat.not_lt.mp fun hwide => hinp ⟨r, c, _, hf, State.nextInputChar_pending hin, hwide⟩
    exact { State.WordRange.setReg (s := { s with inbuf := rest }) { h with } r hle with }
  | inLine r c rest later hin hsource hfits =>
    have hle := Nat.not_lt.mp fun hwide => hinp ⟨r, c, _, hf, State.nextInputChar_line hin hsource hfits, hwide⟩
    exact { State.WordRange.setReg (s := { s with inbuf := rest, source := later }) { h with } r hle with }
  | out _ x => exact { h.emit x with }
  | _ => exact { h with }

/-- Settles O49: the three cases are those of `State.widens_iff`. -/
theorem wordRangeLeftInExactlyThreeCases : Obligations.WordRangeLeftInExactlyThreeCases := by
  intro s s' _ hword hstep
  rw [State.wordInv_iff] at hword ⊢
  constructor
  · exact fun h' => Bool.eq_false_iff.mpr fun hw => State.not_wordRange_of_widens hw hstep h'
  · intro hw
    have hnot := State.widens_iff.not.mp (Bool.eq_false_iff.mp hw)
    obtain ⟨e, rfl⟩ | ⟨i, hf, heff⟩ := step_effect hstep
    · exact { hword with }
    · exact heff.keeps_wordRange hf hword hnot

/-! ## At reset and after a load -/

/-- Settles O46: both invariants evaluated at the reset state. -/
theorem invariantAtReset : Obligations.InvariantAtReset := ⟨rfl, rfl⟩

/-- A loaded image lists nothing but words of the image. -/
theorem Memory.mem_ofWords {a : Nat} {ws : List Cell} {p : Nat × Cell} (hp : p ∈ Memory.ofWords a ws) : p.2 ∈ ws := by
  induction ws generalizing a with
  | nil => cases hp
  | cons w ws ih =>
    rw [Memory.ofWords] at hp
    split at hp
    · exact List.mem_cons_of_mem w (ih hp)
    · obtain rfl | hp := List.mem_cons.mp hp
      · exact List.mem_cons_self
      · exact List.mem_cons_of_mem w (ih hp)

/-- Reset with an image is the reset state but for Memory. -/
theorem State.resetWith_eq_some {ws : List Cell} {s : State} (h : State.resetWith ws = some s) :
    ws.length ≤ 32768 ∧ s = { State.reset with mem := Memory.ofWords 0 ws } := by
  rw [State.resetWith] at h
  split at h
  · next hlen => exact ⟨hlen, (Option.some.inj h).symm⟩
  · cases h

/-- Settles O47: Memory is canonical by `Memory.wfFrom_ofWords` and in the range by `Memory.mem_ofWords`; all else is as at
reset. -/
theorem invariantsAfterLoad : Obligations.InvariantsAfterLoad := by
  intro ws s hs
  obtain ⟨hinv, hword⟩ := invariantAtReset
  obtain ⟨hlen, rfl⟩ := State.resetWith_eq_some hs
  rw [State.inv_iff] at hinv ⊢
  rw [State.wordInv_iff] at hword ⊢
  exact ⟨{ hinv with memWf := Memory.wfFrom_ofWords 0 ws (by omega) },
    fun hws => { hword with mem := fun p hp => hws p.2 (Memory.mem_ofWords hp) }⟩

end Sys2Proof.Machine
end

section
/-! The step of a running core (R90): the instruction it runs, that it always answers with unbounded line buffers, and where
the pc goes (R97). -/

namespace Sys2Proof.Machine

/-! ## The instruction at the pc (R90, R91) -/

/-- Cells that stand at the pc, inside Memory, are the first ones fetched. -/
theorem State.fetchCells_eq_append {s : State} {cells : List Cell} (hlen : cells.length ≤ 4)
    (hinside : s.pc.toNat + cells.length ≤ 32768)
    (hcells : ∀ k, k < cells.length → cells[k]? = some (s.mem.read (s.pc.toNat + k))) :
    ∃ rest, s.fetchCells = cells ++ rest := by
  have htake : s.fetchCells.take cells.length = cells := by
    refine List.ext_getElem? fun k => ?_
    by_cases hk : k < cells.length
    · rw [List.getElem?_take_of_lt hk, State.fetchCells_of_le (by omega) (by omega), hcells k hk]
    · rw [List.getElem?_take_eq_none (Nat.not_lt.mp hk), List.getElem?_eq_none (Nat.not_lt.mp hk)]
  refine ⟨s.fetchCells.drop cells.length, ?_⟩
  calc s.fetchCells
    _ = s.fetchCells.take cells.length ++ s.fetchCells.drop cells.length := (List.take_append_drop _ _).symm
    _ = cells ++ s.fetchCells.drop cells.length := by rw [htake]

/-- Settles O38: the cells fetched begin with the encoding, so the instruction decoded is that one, by the round trip. -/
theorem stepRunsDecodedInstruction : Obligations.StepRunsDecodedInstruction := by
  intro i s hrun hi himpl hinside hcells
  have hlen : (encode i).length ≤ 4 := by
    rw [encode_length]
    exact Nat.succ_le_succ i.opcode.forms_length_le
  obtain ⟨rest, hfetched⟩ := State.fetchCells_eq_append hlen hinside hcells
  have hdecode : decode s.fetchCells = .ok (i, rest) := by
    rw [hfetched]
    exact decodeEncodeRoundTrip i rest hi
  have hfetch : s.fetch = .ok i := by simp only [State.fetch, hdecode, State.implements, himpl, if_true]
  exact step_of_fetch_ok hrun hfetch

/-! ## A next state for every running core -/

/-- The result is a next state. -/
def Answers (r : Result) : Prop := ∃ s', r = .next s'

theorem answers_next (s : State) : Answers (.next s) := ⟨s, rfl⟩

theorem answers_fault (e : Cause) (s : State) : Answers (fault e s) := answers_next _

theorem answers_ite {c : Prop} [Decidable c] {r r' : Result} (h : Answers r) (h' : Answers r') :
    Answers (if c then r else r') := by
  split
  · exact h
  · exact h'

theorem withValue_answers (t : Token) (s : State) {k : Cell → Result} (hk : ∀ v, Answers (k v)) :
    Answers (withValue t s k) := by
  obtain ⟨v, -, hgo⟩ | ⟨e, -, hstop⟩ := withValue_cases t s k
  · rw [hgo]
    exact hk v
  · exact ⟨_, hstop⟩

theorem withTarget_answers (t : Token) (s : State) {k : RegIx → Result} (hk : ∀ r, Answers (k r)) :
    Answers (withTarget t s k) := by
  obtain ⟨r, -, hgo⟩ | ⟨e, -, hstop⟩ := withTarget_cases t s k
  · rw [hgo]
    exact hk r
  · exact ⟨_, hstop⟩

/-- An output buffer without a depth has room for every character. -/
theorem State.outbufRoom_of_unbounded {s : State} (h : s.params.outbufDepth = none) (c : Cell) : s.outbufRoom c = true := by
  rw [State.outbufRoom, h, fits, Bool.or_true]

/-- An input buffer without a depth has room for every line. -/
theorem State.nextInputChar_ne_tooLong {s : State} (h : s.params.inbufDepth = none) : s.nextInputChar ≠ .tooLong := by
  intro hlong
  unfold State.nextInputChar at hlong
  rw [h] at hlong
  split at hlong
  · cases hlong
  · split at hlong <;> cases hlong

/-- With unbounded line buffers every instruction answers: what an operand, the stack or an address can stop is a fault. -/
theorem exec_answers (i : Instr) {s : State} (hout : s.params.outbufDepth = none) (hin : s.params.inbufDepth = none) :
    Answers (exec i s) := by
  cases i with
  | halt | noop => exact answers_next _
  | ret =>
    obtain hs | ⟨below, v, hs⟩ := List.eq_nil_or_concat s.stack
    · exact ⟨_, exec_ret_empty hs⟩
    · exact ⟨_, exec_ret_top (hs.trans List.concat_eq_append)⟩
  | jmp a => exact withValue_answers a s fun x => answers_next _
  | push a | call a => exact withValue_answers a s fun x => answers_ite (answers_next _) (answers_fault _ s)
  | jt a b | jf a b => exact withValue_answers a s fun x => withValue_answers b s fun y => answers_next _
  | set a b | not a b => exact withTarget_answers a s fun r => withValue_answers b s fun x => answers_next _
  | eq a b c | gt a b c | add a b c | mult a b c | and a b c | or a b c =>
    exact withTarget_answers a s fun r => withValue_answers b s fun x => withValue_answers c s fun y => answers_next _
  | mod a b c =>
    exact withTarget_answers a s fun r => withValue_answers b s fun x => withValue_answers c s fun y =>
      answers_ite (answers_fault _ s) (answers_next _)
  | pop a =>
    refine withTarget_answers a s fun r => ?_
    cases s.stack.getLast? with
    | some v => exact answers_next _
    | none => exact answers_fault _ s
  | rmem a b =>
    refine withTarget_answers a s fun r => withValue_answers b s fun x => ?_
    cases s.memRead x.toNat with
    | some v => exact answers_next _
    | none => exact answers_fault _ s
  | wmem a b =>
    refine withValue_answers a s fun x => withValue_answers b s fun y => ?_
    cases s.memWrite x.toNat y with
    | some t => exact answers_next _
    | none => exact answers_fault _ s
  | out a =>
    refine withValue_answers a s fun x => ?_
    rw [if_pos (State.outbufRoom_of_unbounded hout x)]
    exact answers_next _
  | inp a =>
    refine withTarget_answers a s fun r => ?_
    cases hc : s.nextInputChar with
    | char c t => exact answers_next _
    | wait => exact answers_next _
    | tooLong => exact absurd hc (State.nextInputChar_ne_tooLong hin)

/-- Settles O43: a fetch that fails is a fault, and an instruction fetched answers by `exec_answers`. -/
theorem runningCoreAlwaysSteps : Obligations.RunningCoreAlwaysSteps := by
  intro s hrun hout hin
  cases hfetch : s.fetch with
  | error e => exact ⟨_, step_of_fetch_error hrun hfetch⟩
  | ok i =>
    obtain ⟨s', hexec⟩ := exec_answers i hout hin
    exact ⟨s', (step_of_fetch_ok hrun hfetch).trans hexec⟩

/-! ## Where the pc goes (R97) -/

/-- An advancing instruction takes a fault, waits, or adds its length to the pc. -/
theorem Effect.pc_cases {i : Instr} {s s' : State} (heff : Effect s i s') (hadv : i.opcode.advances = true) :
    (∃ e, s' = s.raise e) ∨ (∃ a, i = .inp a ∧ s' = s) ∨ s'.pc = s.pc + BitVec.ofNat 16 i.opcode.length := by
  cases heff with
  | raise _ e => exact .inl ⟨e, rfl⟩
  | wait r => exact .inr (.inl ⟨_, rfl, rfl⟩)
  | jmp | jtTaken | jtNot | jfTaken | jfNot | call | ret | retHalt => cases hadv
  | out => exact .inr (.inr (congrArg (· + 2#16) (State.emit_pc s _)))
  | _ => exact .inr (.inr rfl)

/-- Adding the length of an instruction that lies inside Memory to the pc does not wrap. -/
theorem State.pc_add_toNat {s : State} {n : Nat} (h : s.pc.toNat + n ≤ 32768) :
    (s.pc + BitVec.ofNat 16 n).toNat = s.pc.toNat + n := by
  rw [BitVec.toNat_add, BitVec.toNat_ofNat]
  omega

/-- A state without a latched fault was not left by fault entry. -/
theorem not_raise_of_error_eq_none {s s' : State} (h : s'.error = none) : ¬ ∃ e, s' = s.raise e := by
  rintro ⟨e, rfl⟩
  cases h

/-- Settles O44: the advancing instructions by `Effect.pc_cases`, the five others each by what it can do. -/
theorem pcAdvanceTable : Obligations.PcAdvanceTable := by
  intro s s' i hfetch hstep herr
  have hexec := exec_of_step hfetch hstep
  have hinside := State.fetch_ok_inside hfetch
  have hnoraise := not_raise_of_error_eq_none (s := s) herr
  refine ⟨?advances, ?target, ?jt, ?jf, ?ret⟩
  case advances =>
    intro hadv hnowait
    obtain hraise | ⟨a, hi, hwait⟩ | hpc := (exec_effect hexec).pc_cases hadv
    · exact absurd hraise hnoraise
    · exact absurd hwait (hnowait a hi)
    · rw [hpc, State.pc_add_toNat hinside]
  case target =>
    rintro a (rfl | rfl)
    · obtain ⟨x, hx, rfl⟩ := (exec_jmp_next hexec).resolve_left hnoraise
      exact hx
    · obtain ⟨x, hx, -, rfl⟩ := (exec_call_next hexec).resolve_left hnoraise
      exact hx
  case jt =>
    rintro a b x y rfl hx hy
    obtain ⟨x', y', hx', hy', hpc⟩ := (exec_jt_next hexec).resolve_left hnoraise
    obtain rfl : x = x' := Except.ok.inj (hx.symm.trans hx')
    obtain rfl : y = y' := Except.ok.inj (hy.symm.trans hy')
    obtain ⟨hzero, rfl⟩ | ⟨rfl, rfl⟩ := hpc
    · rw [if_pos hzero, State.setPc_pc]
    · rw [if_neg (not_not_intro rfl)]
      exact State.pc_add_toNat hinside
  case jf =>
    rintro a b x y rfl hx hy
    obtain ⟨x', y', hx', hy', hpc⟩ := (exec_jf_next hexec).resolve_left hnoraise
    obtain rfl : x = x' := Except.ok.inj (hx.symm.trans hx')
    obtain rfl : y = y' := Except.ok.inj (hy.symm.trans hy')
    obtain ⟨rfl, rfl⟩ | ⟨hzero, rfl⟩ := hpc
    · rw [if_pos rfl, State.setPc_pc]
    · rw [if_neg hzero]
      exact State.pc_add_toNat hinside
  case ret =>
    rintro rfl
    obtain ⟨v, hv, rfl⟩ | ⟨hs, rfl⟩ := exec_ret_next hexec
    · rw [hv, State.setPc_pc, Option.getD_some]
    · rw [hs, State.halt_pc, List.getLast?_nil, Option.getD_none]

end Sys2Proof.Machine
end

section
/-! What a program cannot see: the output side (R30, R156), and the lines the source supplies later (R155). -/

namespace Sys2Proof.Machine

/-! ## The I/O side changed -/

/-- The state with its I/O side changed: output buffer, pending input, sink and source, each by a function of its own. -/
def State.mapIo (u v : List Cell → List Cell) (w x : List (List Cell) → List (List Cell)) (s : State) : State :=
  { s with outbuf := u s.outbuf, inbuf := v s.inbuf, sink := w s.sink, source := x s.source }

/-- A result with its next state, if it is one, changed. -/
def mapNext (f : State → State) : Result → Result
  | .next s => .next (f s)
  | .fault e => .fault e
  | .refused e => .refused e

/-- A value operand is read from the registers alone. -/
theorem resolveValue_congr {s t : State} (h : t.regs = s.regs) (a : Token) : resolveValue t a = resolveValue s a := by
  cases a with
  | literal | invalid => rfl
  | register r => rw [resolveValue, resolveValue, State.getReg, State.getReg, h]

section

variable {u v : List Cell → List Cell} {w x : List (List Cell) → List (List Cell)} {s : State}

theorem withValue_mapIo (t : Token) {k k' : Cell → Result} (hk : ∀ c, k' c = mapNext (State.mapIo u v w x) (k c)) :
    withValue t (s.mapIo u v w x) k' = mapNext (State.mapIo u v w x) (withValue t s k) := by
  have hresolve : resolveValue (s.mapIo u v w x) t = resolveValue s t := resolveValue_congr rfl t
  rw [withValue, withValue, hresolve]
  cases resolveValue s t with
  | ok c => exact hk c
  | error e => rfl

theorem withTarget_mapIo (t : Token) {k k' : RegIx → Result} (hk : ∀ r, k' r = mapNext (State.mapIo u v w x) (k r)) :
    withTarget t (s.mapIo u v w x) k' = mapNext (State.mapIo u v w x) (withTarget t s k) := by
  rw [withTarget, withTarget]
  cases resolveTarget t with
  | ok r => exact hk r
  | error e => rfl

/-- An instruction other than `out` and `in` neither reads the I/O side nor changes it. -/
theorem exec_mapIo {i : Instr} (hi : i.opcode ∉ [Opcode.out, .inp]) :
    exec i (s.mapIo u v w x) = mapNext (State.mapIo u v w x) (exec i s) := by
  cases i with
  | out | inp => simp [Instr.opcode] at hi
  | halt | noop => rfl
  | ret =>
    simp only [exec, execRet, show (s.mapIo u v w x).stack = s.stack from rfl]
    cases s.stack.getLast? <;> rfl
  | jmp a => exact withValue_mapIo a fun _ => rfl
  | push a | call a =>
    refine withValue_mapIo a fun _ => ?_
    rw [apply_ite (mapNext _)]
    rfl
  | jt a b | jf a b =>
    refine withValue_mapIo a fun c => withValue_mapIo b fun _ => ?_
    cases isNonzero c <;> rfl
  | set a b | not a b => exact withTarget_mapIo a fun _ => withValue_mapIo b fun _ => rfl
  | eq a b c | gt a b c | add a b c | mult a b c | and a b c | or a b c =>
    exact withTarget_mapIo a fun _ => withValue_mapIo b fun _ => withValue_mapIo c fun _ => rfl
  | mod a b c =>
    refine withTarget_mapIo a fun _ => withValue_mapIo b fun _ => withValue_mapIo c fun _ => ?_
    rw [apply_ite (mapNext _)]
    rfl
  | pop a =>
    refine withTarget_mapIo a fun _ => ?_
    rw [show (s.mapIo u v w x).stack = s.stack from rfl]
    cases s.stack.getLast? <;> rfl
  | rmem a b =>
    refine withTarget_mapIo a fun _ => withValue_mapIo b fun c => ?_
    rw [show (s.mapIo u v w x).memRead c.toNat = s.memRead c.toNat from rfl]
    cases s.memRead c.toNat <;> rfl
  | wmem a b =>
    refine withValue_mapIo a fun c => withValue_mapIo b fun _ => ?_
    by_cases hc : c.toNat < 32768
    · rw [s.memWrite_of_lt hc, State.memWrite_of_lt _ hc]
      rfl
    · rw [s.memWrite_of_ge (Nat.not_lt.mp hc), State.memWrite_of_ge _ (Nat.not_lt.mp hc)]
      rfl

end

/-- What the next character can come from: the pending line, no line or an empty one, or a line with a first character. -/
theorem State.input_cases (s : State) :
    (∃ c rest, s.inbuf = c :: rest) ∨ (s.inbuf = [] ∧ (s.source = [] ∨ ∃ later, s.source = [] :: later)) ∨
      (s.inbuf = [] ∧ ∃ c rest later, s.source = (c :: rest) :: later) := by
  match s.inbuf, s.source with
  | c :: rest, _ => exact .inl ⟨c, rest, rfl⟩
  | [], [] => exact .inr (.inl ⟨rfl, .inl rfl⟩)
  | [], [] :: later => exact .inr (.inl ⟨rfl, .inr ⟨later, rfl⟩⟩)
  | [], (c :: rest) :: later => exact .inr (.inr ⟨rfl, c, rest, later, rfl⟩)

/-! ## The output side -/

/-- The state with another output side: output buffer and sink. -/
def State.withOutput (o : List Cell) (k : List (List Cell)) (s : State) : State := { s with outbuf := o, sink := k }

theorem State.withOutput_eq_mapIo (o : List Cell) (k : List (List Cell)) :
    State.withOutput o k = State.mapIo (fun _ => o) id (fun _ => k) id := rfl

/-- The second result is the first but for the output side of a next state. -/
def SameButOutput (r r' : Result) : Prop :=
  (∀ s', r = .next s' → ∃ o' k', r' = .next (s'.withOutput o' k')) ∧
    (∀ e, r = .fault e → r' = .fault e) ∧ (∀ e, r = .refused e → r' = .refused e)

theorem sameButOutput_mapNext (o : List Cell) (k : List (List Cell)) (r : Result) :
    SameButOutput r (mapNext (State.withOutput o k) r) := by
  cases r with
  | next s' => exact ⟨fun _ h => ⟨o, k, Host.Outcome.next.inj h ▸ rfl⟩, nofun, nofun⟩
  | fault e => exact ⟨nofun, fun _ h => h, nofun⟩
  | refused e => exact ⟨nofun, nofun, fun _ h => h⟩

/-- Emitting a character changes nothing but the output side, whatever that was. -/
theorem State.emit_withOutput (o : List Cell) (k : List (List Cell)) (s : State) (c : Cell) :
    ∃ o' k', (s.withOutput o k).emit c = (s.emit c).withOutput o' k' := by
  by_cases hc : c = Config.newline
  · subst hc
    exact ⟨[], k ++ [o], rfl⟩
  · rw [State.emit_char s c hc, State.emit_char _ c hc]
    exact ⟨o ++ [c], k, rfl⟩

/-- `out` finds room in either output buffer, and changes the output side only. -/
theorem exec_out_withOutput (o : List Cell) (k : List (List Cell)) {s : State} (hdepth : s.params.outbufDepth = none)
    (a : Token) : SameButOutput (exec (.out a) s) (exec (.out a) (s.withOutput o k)) := by
  have hresolve : resolveValue (s.withOutput o k) a = resolveValue s a := resolveValue_congr rfl a
  cases ha : resolveValue s a with
  | error e =>
    rw [exec_out, exec_out, withValue_error ha, withValue_error (hresolve.trans ha)]
    exact sameButOutput_mapNext o k (fault e s)
  | ok c =>
    obtain ⟨o', k', hemit⟩ := s.emit_withOutput o k c
    rw [exec_out, exec_out, withValue_ok ha, withValue_ok (hresolve.trans ha),
      if_pos (State.outbufRoom_of_unbounded hdepth c), if_pos (State.outbufRoom_of_unbounded (s := s.withOutput o k) hdepth c), hemit]
    exact sameButOutput_mapNext o' k' (.next ((s.emit c).advance 2))

/-- `in` neither reads the output side nor changes it. -/
theorem exec_inp_withOutput (o : List Cell) (k : List (List Cell)) (s : State) (a : Token) :
    exec (.inp a) (s.withOutput o k) = mapNext (State.withOutput o k) (exec (.inp a) s) := by
  cases ha : resolveTarget a with
  | error e =>
    rw [exec_inp_error ha, exec_inp_error ha]
    rfl
  | ok r =>
    obtain ⟨c, rest, hin⟩ | ⟨hin, hsource⟩ | ⟨hin, c, rest, later, hsource⟩ := s.input_cases
    · rw [exec_inp_char ha (State.nextInputChar_pending hin),
        exec_inp_char ha (State.nextInputChar_pending (s := s.withOutput o k) hin)]
      rfl
    · rw [exec_inp_wait ha (State.nextInputChar_wait hin hsource),
        exec_inp_wait ha (State.nextInputChar_wait (s := s.withOutput o k) hin hsource)]
      rfl
    · by_cases hfits : fits s.params.inbufDepth (rest.length + 1) = true
      · rw [exec_inp_char ha (State.nextInputChar_line hin hsource hfits),
          exec_inp_char ha (State.nextInputChar_line (s := s.withOutput o k) hin hsource hfits)]
        rfl
      · rw [exec_inp_tooLong ha (State.nextInputChar_tooLong hin hsource hfits),
          exec_inp_tooLong ha (State.nextInputChar_tooLong (s := s.withOutput o k) hin hsource hfits)]
        rfl

/-- Every instruction does the same with another output side. -/
theorem exec_sameButOutput (o : List Cell) (k : List (List Cell)) {s : State} (hdepth : s.params.outbufDepth = none)
    (i : Instr) : SameButOutput (exec i s) (exec i (s.withOutput o k)) := by
  cases i with
  | out a => exact exec_out_withOutput o k hdepth a
  | inp a => exact exec_inp_withOutput o k s a ▸ sameButOutput_mapNext o k _
  | _ =>
    rw [State.withOutput_eq_mapIo, exec_mapIo (by simp [Instr.opcode])]
    exact sameButOutput_mapNext o k _

/-- Settles O50: fetch does not read the output side, and an instruction fetched does the same by `exec_sameButOutput`. -/
theorem outputSideNotReadable : Obligations.OutputSideNotReadable := by
  intro s o k hdepth
  have hfetch : (s.withOutput o k).fetch = s.fetch := rfl
  change SameButOutput (step s) (step (s.withOutput o k))
  cases hrun : s.running with
  | false =>
    rw [runningLeftOnlyThreeWays.1 s hrun, runningLeftOnlyThreeWays.1 (s.withOutput o k) hrun]
    exact sameButOutput_mapNext o k (.fault .halted)
  | true =>
    cases hf : s.fetch with
    | error e =>
      rw [step_of_fetch_error hrun hf, step_of_fetch_error (s := s.withOutput o k) hrun (hfetch.trans hf)]
      exact sameButOutput_mapNext o k (.next (s.raise e))
    | ok i =>
      rw [step_of_fetch_ok hrun hf, step_of_fetch_ok (s := s.withOutput o k) hrun (hfetch.trans hf)]
      exact exec_sameButOutput o k hdepth i

/-! ## The lines the source supplies later -/

theorem State.supplyLine_eq_mapIo (s : State) (line : List Cell) :
    s.supplyLine line = s.mapIo id id id (· ++ [line]) := rfl

/-- Emitting a character leaves a line supplied later to come. -/
theorem State.emit_supplyLine (s : State) (line : List Cell) (c : Cell) :
    (s.supplyLine line).emit c = (s.emit c).supplyLine line := by
  by_cases hc : c = Config.newline
  · subst hc
    rfl
  · rw [State.emit_char s c hc, State.emit_char _ c hc]
    rfl

/-- `out` neither reads the source nor changes it. -/
theorem exec_out_supplyLine (s : State) (line : List Cell) (a : Token) :
    exec (.out a) (s.supplyLine line) = mapNext (·.supplyLine line) (exec (.out a) s) := by
  refine withValue_mapIo (u := id) (v := id) (w := id) (x := (· ++ [line])) a fun c => ?_
  rw [State.emit_supplyLine, apply_ite (mapNext _)]
  rfl

/-- `in` does the same with one line more to come, when a character is pending or a line is there. -/
theorem exec_inp_supplyLine {s s' : State} {a : Token} (line : List Cell)
    (hthere : ∀ r, a = .register r → ¬(s.inbuf = [] ∧ s.source = [])) (h : exec (.inp a) s = .next s') :
    exec (.inp a) (s.supplyLine line) = .next (s'.supplyLine line) := by
  cases a with
  | literal | invalid =>
    rw [exec_inp_error rfl] at h ⊢
    cases h
    rfl
  | register r =>
    obtain ⟨c, rest, hin⟩ | ⟨hin, hsource | ⟨later, hsource⟩⟩ | ⟨hin, c, rest, later, hsource⟩ := s.input_cases
    · rw [exec_inp_char rfl (State.nextInputChar_pending hin)] at h
      cases h
      exact exec_inp_char rfl (State.nextInputChar_pending (s := s.supplyLine line) hin)
    · exact absurd ⟨hin, hsource⟩ (hthere r rfl)
    · have hsource' : (s.supplyLine line).source = [] :: (later ++ [line]) := congrArg (· ++ [line]) hsource
      rw [exec_inp_wait rfl (State.nextInputChar_wait hin (.inr ⟨later, hsource⟩))] at h
      cases h
      exact exec_inp_wait rfl (State.nextInputChar_wait hin (.inr ⟨_, hsource'⟩))
    · have hsource' : (s.supplyLine line).source = (c :: rest) :: (later ++ [line]) := congrArg (· ++ [line]) hsource
      by_cases hfits : fits s.params.inbufDepth (rest.length + 1) = true
      · rw [exec_inp_char rfl (State.nextInputChar_line hin hsource hfits)] at h
        cases h
        exact exec_inp_char rfl (State.nextInputChar_line (s := s.supplyLine line) hin hsource' hfits)
      · rw [exec_inp_tooLong rfl (State.nextInputChar_tooLong hin hsource hfits)] at h
        cases h

/-- Settles O51: fetch does not read the source; of the instructions only `in` does, and a line requested is there. -/
theorem laterLinesDoNotMatter : Obligations.LaterLinesDoNotMatter := by
  intro s s' line hthere hstep
  have hfetch : (s.supplyLine line).fetch = s.fetch := rfl
  obtain ⟨hrun, ⟨i, hf, hexec⟩ | ⟨e, hf, rfl⟩⟩ := step_next hstep
  · rw [step_of_fetch_ok (s := s.supplyLine line) hrun (hfetch.trans hf)]
    cases i with
    | inp a =>
      refine exec_inp_supplyLine line ?_ hexec
      rintro r rfl ⟨hin, hsource⟩
      exact hthere ⟨by simp [State.lineRequested, hrun, hin, hf], hsource⟩
    | out a => rw [exec_out_supplyLine, hexec, mapNext]
    | _ =>
      rw [State.supplyLine_eq_mapIo, exec_mapIo (by simp [Instr.opcode]), hexec]
      rfl
  · exact step_of_fetch_error (s := s.supplyLine line) hrun (hfetch.trans hf)

end Sys2Proof.Machine
end

section
/-! Pairs of instructions (R46, R53, R131, R201), and the status outputs (R191). -/

namespace Sys2Proof.Machine

/-- The first cell fetched is the one at the pc. -/
theorem State.head?_fetchCells {s : State} (hpc : s.pc.toNat ≤ 32767) :
    s.fetchCells.head? = some (s.mem.read s.pc.toNat) := by
  obtain ⟨rest, hcells, -⟩ := State.fetchCells_of_pc_inside hpc
  rw [hcells, List.head?_cons]

/-- Settles O54: the cell stored reads back by `Memory.read_write_same`, and the opcode cell is the first cell fetched. -/
theorem storeSeenByNextFetch : Obligations.StoreSeenByNextFetch := by
  intro s a b x y hwf hrun hfetch ha hb hx
  have hread := Memory.read_write_same hwf x.toNat y
  refine ⟨_, (step_of_fetch_ok hrun hfetch).trans (exec_wmem_inside ha hb (Nat.lt_succ_of_le hx)), ?cell, ?opcode⟩
  case cell =>
    rw [State.memRead_of_lt _ (Nat.lt_succ_of_le hx)]
    exact congrArg some hread
  case opcode =>
    intro hpc
    rw [State.head?_fetchCells (by rw [hpc]; exact hx), hpc]
    exact congrArg some hread

/-- Settles O55: `pop` finds on top what `push` put there. -/
theorem pushThenPopMovesValue : Obligations.PushThenPopMovesValue := by
  intro s a x r ha hroom
  have hpush : exec (.push a) s = .next ((s.push x).advance 2) := by
    rw [exec_push_ok ha, if_pos (State.stackRoom_iff.mpr hroom)]
  refine ⟨_, _, hpush, exec_pop_top rfl rfl, ?value, ?stack⟩
  case value => exact State.getReg_setReg_same _ r x
  case stack => exact List.dropLast_concat

/-- Settles O56: `ret` finds on top the address `call` put there. -/
theorem callThenRetResumesAfterCall : Obligations.CallThenRetResumesAfterCall := by
  intro s t u a x ha hroom hcall hstack
  rw [exec_call, withValue_ok ha, if_pos (State.stackRoom_iff.mpr hroom)] at hcall
  cases hcall
  refine ⟨rfl, _, exec_ret_top hstack, rfl, ?stack⟩
  case stack =>
    rw [State.setPc_stack, State.dropTop_stack, hstack]
    exact List.dropLast_concat

/-- Settles O57: `wmem` leaves the registers, so the address is the same, and the cell there reads back. -/
theorem storeThenLoadReturnsValue : Obligations.StoreThenLoadReturnsValue := by
  intro s a b r x y hwf ha hb hx
  have hlt : x.toNat < 32768 := Nat.lt_succ_of_le hx
  have haddr : resolveValue (State.advance { s with mem := s.mem.write x.toNat y } 3) a = .ok x :=
    (resolveValue_congr rfl a).trans ha
  refine ⟨_, _, exec_wmem_inside ha hb hlt, exec_rmem_inside rfl haddr hlt, ?value⟩
  case value => exact (State.getReg_setReg_same _ r _).trans (Memory.read_write_same hwf x.toNat y)

/-! ## The status outputs (R170, R191) -/

/-- The fault latch a code stands for (R170). -/
def latchOfCode : Nat → Option Cause
  | 1 => some .outOfBoundsPC
  | 2 => some .unknownOpcode
  | 3 => some .unimplementedOpcode
  | 4 => some .invalidOperand
  | 5 => some .invalidRegisterOperand
  | 6 => some .stackUnderflow
  | 7 => some .modByZero
  | 8 => some .outOfBoundsAddress
  | 9 => some .stackOverflow
  | _ => none

/-- The code tells the latch, so no two causes share one. -/
theorem latchOfCode_errorCode : Function.LeftInverse latchOfCode errorCode
  | none => rfl
  | some e => by cases e <;> rfl

/-- The code of a cause is from 1 to 9. -/
theorem errorCode_some_range (e : Cause) : 1 ≤ errorCode (some e) ∧ errorCode (some e) ≤ 9 := by
  cases e <;> decide

/-- Settles O60: the code is 0 for no cause and by `errorCode_some_range` from 1 to 9 for a cause. -/
theorem statusTellsConditionsApart : Obligations.StatusTellsConditionsApart := by
  refine ⟨fun _ => rfl, rfl, rfl, rfl, rfl, rfl, rfl, rfl, rfl, rfl, rfl, fun s hinv => ⟨?running, ?graceful, ?faulted⟩,
    fun _ _ h => latchOfCode_errorCode.injective h⟩
  case running =>
    intro hrun
    rw [State.status, hrun, (State.inv_iff.mp hinv).error_eq_none hrun, errorCode]
  case graceful =>
    rw [State.graceful, State.status, Prod.mk.injEq, Bool.and_eq_true, Bool.not_eq_true', Option.isNone_iff_eq_none]
    exact and_congr_right fun _ => ⟨fun h => by rw [h, errorCode], fun h => latchOfCode_errorCode.injective h⟩
  case faulted =>
    rw [State.faulted, State.status, Bool.and_eq_true, Bool.not_eq_true']
    refine and_congr_right fun _ => ?_
    cases s.error with
    | none => simp [errorCode]
    | some e => exact iff_of_true rfl (errorCode_some_range e)

end Sys2Proof.Machine
end
